-- ==== Sys2Proof/Word.lean ====
section
/-! DEFINITION. The value types of the Gas Frame Synchronizer block: command words, bytes, samples, the two
levels of a time-slot, the five Morse symbols, the four error kinds, and the result type of the contracts.
Numeric codes of these values are not here but in Sys2Proof/Decode.lean. -/

namespace Sys2Proof

/-- A command word `cmd[31:0]` (30_encoding.md R73). -/
abbrev Word := BitVec 32

/-- A character code, one `MSG` cell (30_encoding.md R76, 20_memory.md R52). -/
abbrev Byte := BitVec 8

/-- A raw intensity sample or a threshold: an unsigned number of `SAMPLE_W` bits (10_state.md R29,
43_decoder_state_machine.md R166). `SAMPLE_W` is the parameter `Cfg.sampleW` (00_scope.md R6), so the type holds
the widest operand a command word has room for, `cmd[27:0]`, and that a value is below `2^SAMPLE_W` is said where
it matters: `Instr.wellFormed` and `State.Inv` (log entry 3). -/
abbrev Sample := BitVec 28

/-- The `data` field of a response, 24 bits (30_encoding.md R80). -/
abbrev Data := BitVec 24

/-- The level of one time-slot (00_scope.md R10, R14). -/
inductive Bit where
  | lo
  | hi
  deriving DecidableEq, Repr

/-- A Morse primitive or framing marker, in the order of 30_encoding.md R75. -/
inductive MorseSymbol where
  | dot
  | dash
  | charBreak
  | wordBreak
  | lineBreak
  deriving DecidableEq, Repr

/-- The four error kinds, in the order of 60_exceptions.md R201. They are ordinary results (R200). -/
inductive ErrorKind where
  | unsupportedChar
  | unknownBitSequence
  | unknownSequence
  | fullBuffer
  deriving DecidableEq, Repr

/-- `Ok(v)` or `Err(E)` (00_scope.md R13). -/
inductive Result (ε α : Type) where
  | ok (v : α)
  | err (e : ε)
  deriving DecidableEq, Repr

/-- One thing the host's script can present to the core at a clock edge, in the three formats of
spec/opcode_table.json: a 32-bit command word (30_encoding.md R73), or a word of the line code written as its
bits, first bit first, in the format `bitrun` (R82, R84) or `morse` (R90). The two line-code formats are how
the pseudo-instructions of R92 stand in a script (log entries 7 to 11). -/
inductive HostWord where
  | op (w : Word)
  | bitrun (bits : List Bit)
  | morse (bits : List Bit)
  deriving DecidableEq, Repr

/-- Why a word spells no instruction. The first four are the reserved command encodings of 30_encoding.md R89,
in the order of its sentence; the last is a line-code word that is no row of spec/opcode_table.json. -/
inductive Reserved where
  /-- operation code 0x0, 0x6, 0x7, 0xC, 0xD, 0xE or 0xF -/
  | opcode
  /-- a bit the format does not assign is non-zero -/
  | unassignedBit
  /-- a symbol code 5, 6 or 7 in a used position -/
  | symbolCode
  /-- a B2S length above 8 -/
  | runLength
  /-- no row of the format has these bits -/
  | noRow
  deriving DecidableEq, Repr

end Sys2Proof
end

