-- ==== Sys2Proof/Config.lean ====
section
/-! DEFINITION. The configuration record `Cfg` of 00_scope.md R6, as plain data, and the constraints of R7.
The default values stand in Sys2Proof/Machine/Roms.lean. -/

namespace Sys2Proof

/-- The build-time parameters of 00_scope.md R6. `LEN` is held as its five values (the `LEN_ROM` of
20_memory.md R50) and `TABLE` as its rows (code of the folded character, symbol sequence), in the order of
40_symbol_table.md R101. `TIME_STEP` is `Config.timeStep`. -/
structure Cfg where
  /-- `SP`, the Start Pattern, first element the first bit on the wire -/
  sp : List Bit
  lenDot : Nat
  lenDash : Nat
  lenCharBreak : Nat
  lenWordBreak : Nat
  lenLineBreak : Nat
  /-- `BITRUN_CAP` -/
  bitrunCap : Nat
  /-- `SYMSEQ_CAP` -/
  symseqCap : Nat
  /-- `MSG_CAP` -/
  msgCap : Nat
  /-- `FRAME_CAP`, read by `build_frame` only -/
  frameCap : Nat
  /-- `TABLE` -/
  table : List (Byte × List MorseSymbol)
  /-- `SAMPLE_W`, the width of a raw sample and of `THR` (93_implementation_defined.md U7; log entry 3) -/
  sampleW : Nat
  /-- `THR_RESET` -/
  thrReset : Sample
  deriving DecidableEq, Repr

/-- `LEN(s)` (00_scope.md R6, 41_timing_codec.md R121). -/
def Cfg.len (c : Cfg) : MorseSymbol → Nat
  | .dot => c.lenDot
  | .dash => c.lenDash
  | .charBreak => c.lenCharBreak
  | .wordBreak => c.lenWordBreak
  | .lineBreak => c.lenLineBreak

/-- `SP_LEN` (00_scope.md R6). -/
def Cfg.spLen (c : Cfg) : Nat := c.sp.length

/-- The code range of the uppercase letters, which case folding replaces (40_symbol_table.md R102): no row of
`TABLE` is filed under one of them. -/
def isUpper (ch : Byte) : Bool := 0x41 ≤ ch.toNat && ch.toNat ≤ 0x5A

/-- One row of `TABLE` as 00_scope.md R7 asks: space maps to `[WordBreak]`, newline to `[LineBreak]`, every
other character to a non-empty sequence of `Dot` and `Dash` only; rows stand under the folded code. DESIGN CHOICE
(log entry 23): R7 bounds no row's code, so a configured row may stand at any other code, one of 0x80 to 0xFF too,
which 30_encoding.md R76 calls unsupported and the default table has no row for. -/
def Cfg.RowValid (row : Byte × List MorseSymbol) : Prop :=
  isUpper row.1 = false ∧
  (row.1 = 0x20#8 → row.2 = [.wordBreak]) ∧
  (row.1 = 0x0A#8 → row.2 = [.lineBreak]) ∧
  (row.1 ≠ 0x20#8 → row.1 ≠ 0x0A#8 → row.2 ≠ [] ∧ ∀ s ∈ row.2, s = .dot ∨ s = .dash)

/-- The constraints every `Cfg` must meet, or the rules do not apply (00_scope.md R7). -/
structure Cfg.Valid (c : Cfg) : Prop where
  spLen_pos : 1 ≤ c.spLen
  len_injective : ∀ s t, c.len s = c.len t → s = t
  len_pos : ∀ s, 1 ≤ c.len s
  len_le : ∀ s, c.len s ≤ c.bitrunCap
  bitrunCap_pos : 1 ≤ c.bitrunCap
  bitrunCap_le : c.bitrunCap ≤ 8
  symseqCap_pos : 1 ≤ c.symseqCap
  msgCap_pos : 1 ≤ c.msgCap
  msgCap_le : c.msgCap ≤ 256
  table_chars : (c.table.map Prod.fst).Nodup
  table_injective : (c.table.map Prod.snd).Nodup
  table_rows : ∀ row ∈ c.table, Cfg.RowValid row
  table_space : (0x20#8, [MorseSymbol.wordBreak]) ∈ c.table
  table_newline : (0x0A#8, [MorseSymbol.lineBreak]) ∈ c.table

/-- `TIME_STEP`, the wall-clock duration of one time-slot: OPEN, no value in any source and read by no rule
(00_scope.md R6, 41_timing_codec.md R127; log entry 16). A constant with no body: nothing can be proved of it. -/
opaque Config.timeStep : Nat

end Sys2Proof
end

