-- ==== Sys2Proof/Machine/Roms.lean ====
section
/-! DEFINITION. The contents of the four ROMs and the other parameters at the defaults of 00_scope.md R6. -/

namespace Sys2Proof.Machine

/-- `SP_ROM` at the default: `11111110`, first bit left (30_encoding.md R84). -/
def defaultSP : List Bit := [.hi, .hi, .hi, .hi, .hi, .hi, .hi, .lo]

/-- The letters of `TABLE` (40_symbol_table.md R101). -/
def tableLetters : List (Byte × List MorseSymbol) := [
   (0x61#8, [.dot, .dash]),
   (0x62#8, [.dash, .dot, .dot, .dot]),
   (0x63#8, [.dash, .dot, .dash, .dot]),
   (0x64#8, [.dash, .dot, .dot]),
   (0x65#8, [.dot]),
   (0x66#8, [.dot, .dot, .dash, .dot]),
   (0x67#8, [.dash, .dash, .dot]),
   (0x68#8, [.dot, .dot, .dot, .dot]),
   (0x69#8, [.dot, .dot]),
   (0x6A#8, [.dot, .dash, .dash, .dash]),
   (0x6B#8, [.dash, .dot, .dash]),
   (0x6C#8, [.dot, .dash, .dot, .dot]),
   (0x6D#8, [.dash, .dash]),
   (0x6E#8, [.dash, .dot]),
   (0x6F#8, [.dash, .dash, .dash]),
   (0x70#8, [.dot, .dash, .dash, .dot]),
   (0x71#8, [.dash, .dash, .dot, .dash]),
   (0x72#8, [.dot, .dash, .dot]),
   (0x73#8, [.dot, .dot, .dot]),
   (0x74#8, [.dash]),
   (0x75#8, [.dot, .dot, .dash]),
   (0x76#8, [.dot, .dot, .dot, .dash]),
   (0x77#8, [.dot, .dash, .dash]),
   (0x78#8, [.dash, .dot, .dot, .dash]),
   (0x79#8, [.dash, .dot, .dash, .dash]),
   (0x7A#8, [.dash, .dash, .dot, .dot])]

/-- The digits of `TABLE` (40_symbol_table.md R101). -/
def tableDigits : List (Byte × List MorseSymbol) := [
   (0x30#8, [.dash, .dash, .dash, .dash, .dash]),
   (0x31#8, [.dot, .dash, .dash, .dash, .dash]),
   (0x32#8, [.dot, .dot, .dash, .dash, .dash]),
   (0x33#8, [.dot, .dot, .dot, .dash, .dash]),
   (0x34#8, [.dot, .dot, .dot, .dot, .dash]),
   (0x35#8, [.dot, .dot, .dot, .dot, .dot]),
   (0x36#8, [.dash, .dot, .dot, .dot, .dot]),
   (0x37#8, [.dash, .dash, .dot, .dot, .dot]),
   (0x38#8, [.dash, .dash, .dash, .dot, .dot]),
   (0x39#8, [.dash, .dash, .dash, .dash, .dot])]

/-- Space, newline and the punctuation of `TABLE` (40_symbol_table.md R101). -/
def tableMarks : List (Byte × List MorseSymbol) := [
   (0x20#8, [.wordBreak]),
   (0x0A#8, [.lineBreak]),
   (0x2E#8, [.dot, .dash, .dot, .dash, .dot, .dash]),
   (0x2C#8, [.dash, .dash, .dot, .dot, .dash, .dash]),
   (0x3F#8, [.dot, .dot, .dash, .dash, .dot, .dot])]

/-- `TABLE` at the default: 41 rows (40_symbol_table.md R101). -/
def defaultTable : List (Byte × List MorseSymbol) := tableLetters ++ (tableDigits ++ tableMarks)

/-- The configuration with every parameter at the default of 00_scope.md R6. -/
def defaultCfg : Cfg where
  sp := defaultSP
  lenDot := 2
  lenDash := 3
  lenCharBreak := 1
  lenWordBreak := 4
  lenLineBreak := 5
  bitrunCap := 8
  symseqCap := 256
  msgCap := 128
  frameCap := 4096
  table := defaultTable
  sampleW := 12
  thrReset := 0x800#28

end Sys2Proof.Machine
end

