-- ==== Sys2Proof/Syntax.lean ====
section
/-! DEFINITION. The instructions: one constructor per row of spec/opcode_table.json, operands as the data of
30_encoding.md R71. -/

namespace Sys2Proof

/-- The operations of the command port (30_encoding.md R71, R72) and the line-code rows of the table, which are
the pseudo-instructions `SYM s`, `START` and `CHAR c` of R92. -/
inductive Instr where
  /-- BIT b: feed one time-slot value (43_decoder_state_machine.md R150) -/
  | bit (b : Bit)
  /-- SAMPLE v: threshold a raw sample, then as BIT (43_decoder_state_machine.md R166) -/
  | sample (v : Sample)
  /-- NEW: discard the Parser (43_decoder_state_machine.md R168) -/
  | new
  /-- SETTHR v: write the threshold (45_host_port_ops.md R190) -/
  | setthr (v : Sample)
  /-- RDMSG i: read one character of the held message (45_host_port_ops.md R192) -/
  | rdmsg (i : Byte)
  /-- ENC c: Symbol Table encode (40_symbol_table.md R105) -/
  | enc (c : Byte)
  /-- DEC q: Symbol Table decode (40_symbol_table.md R106) -/
  | dec (q : List MorseSymbol)
  /-- S2B s: Timing Codec symbol to bits (41_timing_codec.md R124) -/
  | s2b (s : MorseSymbol)
  /-- B2S r: Timing Codec bits to symbol (41_timing_codec.md R125) -/
  | b2s (r : List Bit)
  /-- the five symbols of the line code, `SYM s` (30_encoding.md R83, R92) -/
  | symDot
  | symDash
  | symCharBreak
  | symWordBreak
  | symLineBreak
  /-- the Start Pattern, `START` (30_encoding.md R84, R92) -/
  | start
  /-- the 41 characters, `CHAR c` (40_symbol_table.md R101, 30_encoding.md R92) -/
  | charA | charB | charC | charD | charE | charF
  | charG | charH | charI | charJ | charK | charL
  | charM | charN | charO | charP | charQ | charR
  | charS | charT | charU | charV | charW | charX
  | charY | charZ | char0 | char1 | char2 | char3
  | char4 | char5 | char6 | char7 | char8 | char9
  | charSpace | charLF | charPeriod | charComma | charQuestion
  deriving DecidableEq, Repr

end Sys2Proof
end

