-- ==== Sys2Proof/WellFormed.lean ====
section
/-! DEFINITION. The side conditions 30_encoding.md R71 writes beside the operands: the range of a sample or a
threshold, which the parameter `SAMPLE_W` gives, and the lengths of the lists. Every other operand is well-formed
by its type. -/

namespace Sys2Proof

/-- The greatest number of slots of a DEC word (30_encoding.md R71, R73 format Q). -/
def decMaxSymbols : Nat := 7

/-- The greatest number of run bits of a B2S word (30_encoding.md R71, R77). -/
def b2sMaxBits : Nat := 8

/-- The check that the encoding admits the operands (30_encoding.md R71). -/
def Instr.wellFormed (cfg : Cfg) : Instr → Bool
  | .sample v | .setthr v => v.toNat < 2 ^ cfg.sampleW
  | .dec q => q.length ≤ decMaxSymbols
  | .b2s r => r.length ≤ b2sMaxBits
  | .bit _ | .new | .rdmsg _ | .enc _ | .s2b _ => true
  | .symDot | .symDash | .symCharBreak | .symWordBreak | .symLineBreak | .start | .charA | .charB
  | .charC | .charD | .charE | .charF | .charG | .charH | .charI | .charJ
  | .charK | .charL | .charM | .charN | .charO | .charP | .charQ | .charR
  | .charS | .charT | .charU | .charV | .charW | .charX | .charY | .charZ
  | .char0 | .char1 | .char2 | .char3 | .char4 | .char5 | .char6 | .char7
  | .char8 | .char9 | .charSpace | .charLF | .charPeriod | .charComma | .charQuestion => true

/-- An instruction whose operands the encoding admits. -/
abbrev Instr.WellFormed (cfg : Cfg) (i : Instr) : Prop := i.wellFormed cfg = true

end Sys2Proof
end

