-- ==== Sys2Proof/Decode.lean ====
section
/-! DEFINITION. Decoding of what a host script presents: the 32-bit command word (30_encoding.md R72, R73, R77,
R89) and the words of the line code (spec/opcode_table.json, formats `bitrun` and `morse`); then the encoder,
written from the same tables. Decoding is total: every word is an instruction or is rejected by a named reason. -/

namespace Sys2Proof

/-! ### Codes and packings -/

/-- `Bit` in one bit: `Hi` = 1, `Lo` = 0 (30_encoding.md R74). -/
def bitCode : Bit → Nat
  | .lo => 0
  | .hi => 1

/-- The `Bit` of a code (30_encoding.md R77, BIT: `Hi` if the bit is 1 else `Lo`). -/
def bitOfCode (n : Nat) : Bit := if n = 1 then .hi else .lo

/-- `MorseSymbol` in three bits (30_encoding.md R75). -/
def symbolCode : MorseSymbol → Nat
  | .dot => 0
  | .dash => 1
  | .charBreak => 2
  | .wordBreak => 3
  | .lineBreak => 4

/-- The symbol of a code; 5, 6 and 7 are reserved (30_encoding.md R75). -/
def symbolOfCode : Nat → Option MorseSymbol
  | 0 => some .dot
  | 1 => some .dash
  | 2 => some .charBreak
  | 3 => some .wordBreak
  | 4 => some .lineBreak
  | _ => none

/-- A bit list packed with element `i` at bit `i` (00_scope.md R11). -/
def packBits : List Bit → Nat
  | [] => 0
  | b :: l => bitCode b + 2 * packBits l

/-- A symbol list packed with element `i` at bits `[3i+2:3i]` (00_scope.md R11). -/
def packSymbols : List MorseSymbol → Nat
  | [] => 0
  | s :: l => symbolCode s + 8 * packSymbols l

/-- The first `n` elements of a packed bit list (30_encoding.md R77, B2S). -/
def unpackBits : Nat → Nat → List Bit
  | 0, _ => []
  | n + 1, v => bitOfCode (v % 2) :: unpackBits n (v / 2)

/-- The first `n` slots of a packed symbol list, if each holds a symbol code (30_encoding.md R77, DEC). -/
def unpackSymbols : Nat → Nat → Option (List MorseSymbol)
  | 0, _ => some []
  | n + 1, v =>
    match symbolOfCode (v % 8), unpackSymbols n (v / 8) with
    | some s, some q => some (s :: q)
    | _, _ => none

/-- `w[hi:lo]` as a number (00_scope.md R11). -/
def field (w : Word) (hi lo : Nat) : Nat := w.toNat / 2 ^ lo % 2 ^ (hi + 1 - lo)

/-- A line-code word from the table's bit string of length `n` read as a binary number: first bit left, the
first bit on the wire (30_encoding.md R91). -/
def wireWord : Nat → Nat → List Bit
  | 0, _ => []
  | n + 1, v => bitOfCode (v / 2 ^ n % 2) :: wireWord n v

/-! ### The command word -/

/-- The operand of a format whose assigned bits are the `n` bits `cmd[n-1:0]`: rejected when one of the bits
`cmd[27:n]`, which must be zero, is not (30_encoding.md R73). The operation code above them is never part of it. -/
def operand (w : Word) (n : Nat) (k : Nat → Result Reserved Instr) : Result Reserved Instr :=
  if field w 27 n = 0 then k (field w 27 0 % 2 ^ n) else .err .unassignedBit

/-- Format Q: `n = cmd[23:21]`, slot `k = cmd[3k+2:3k]`; slots at or beyond `n` are ignored (30_encoding.md R77). -/
def decodeDec (w : Word) : Result Reserved Instr :=
  match unpackSymbols (field w 23 21) (field w 20 0) with
  | some q => .ok (.dec q)
  | none => .err .symbolCode

/-- Format R: `n = cmd[11:8]`, element `k` in `cmd[k]`; bits at or beyond `n` are ignored (30_encoding.md R77). -/
def decodeB2s (w : Word) : Result Reserved Instr :=
  if field w 11 8 ≤ b2sMaxBits then .ok (.b2s (unpackBits (field w 11 8) (field w 7 0)))
  else .err .runLength

/-- A command word: the operation its code `cmd[31:28]` names, or a reserved encoding (30_encoding.md R72, R73,
R77, R89). The operand of format V is `cmd[SAMPLE_W-1:0]` (43_decoder_state_machine.md R166, 45_host_port_ops.md
R190), which is the `cmd[11:0]` of R73 at the default; that the bits `cmd[27:SAMPLE_W]` must then be zero is
DEDUCED (log entry 3). -/
def decodeOp (cfg : Cfg) (w : Word) : Result Reserved Instr :=
  match field w 31 28 with
  | 0x1 => operand w 1 fun b => .ok (.bit (bitOfCode b))
  | 0x2 => operand w cfg.sampleW fun v => .ok (.sample (BitVec.ofNat 28 v))
  | 0x3 => if field w 27 0 = 0 then .ok .new else .err .unassignedBit
  | 0x4 => operand w cfg.sampleW fun v => .ok (.setthr (BitVec.ofNat 28 v))
  | 0x5 => operand w 8 fun i => .ok (.rdmsg (BitVec.ofNat 8 i))
  | 0x8 => operand w 8 fun c => .ok (.enc (BitVec.ofNat 8 c))
  | 0x9 => operand w 24 fun _ => decodeDec w
  | 0xA => operand w 3 fun s =>
      match symbolOfCode s with
      | some y => .ok (.s2b y)
      | none => .err .symbolCode
  | 0xB => operand w 12 fun _ => decodeB2s w
  | _ => .err .opcode

/-! ### The line code -/

/-- The rows of format `bitrun` of spec/opcode_table.json (30_encoding.md R83, R84). The table gives their words at
the default `LEN` and `SP` only; DESIGN CHOICE (log entry 22): these words name the rows whatever the configuration. -/
def bitrunRows : List (List Bit × Instr) := [
   (wireWord 2 0b10, .symDot),
   (wireWord 3 0b110, .symDash),
   (wireWord 1 0b0, .symCharBreak),
   (wireWord 4 0b1110, .symWordBreak),
   (wireWord 5 0b11110, .symLineBreak),
   (wireWord 8 0b11111110, .start)]

/-- The letters of format `morse` (40_symbol_table.md R101, column "bits"). -/
def letterRows : List (List Bit × Instr) := [
   (wireWord 5 0b10110, .charA),
   (wireWord 9 0b110101010, .charB),
   (wireWord 10 0b1101011010, .charC),
   (wireWord 7 0b1101010, .charD),
   (wireWord 2 0b10, .charE),
   (wireWord 9 0b101011010, .charF),
   (wireWord 8 0b11011010, .charG),
   (wireWord 8 0b10101010, .charH),
   (wireWord 4 0b1010, .charI),
   (wireWord 11 0b10110110110, .charJ),
   (wireWord 8 0b11010110, .charK),
   (wireWord 9 0b101101010, .charL),
   (wireWord 6 0b110110, .charM),
   (wireWord 5 0b11010, .charN),
   (wireWord 9 0b110110110, .charO),
   (wireWord 10 0b1011011010, .charP),
   (wireWord 11 0b11011010110, .charQ),
   (wireWord 7 0b1011010, .charR),
   (wireWord 6 0b101010, .charS),
   (wireWord 3 0b110, .charT),
   (wireWord 7 0b1010110, .charU),
   (wireWord 9 0b101010110, .charV),
   (wireWord 8 0b10110110, .charW),
   (wireWord 10 0b1101010110, .charX),
   (wireWord 11 0b11010110110, .charY),
   (wireWord 10 0b1101101010, .charZ)]

/-- The digits of format `morse` (40_symbol_table.md R101, column "bits"). -/
def digitRows : List (List Bit × Instr) := [
   (wireWord 15 0b110110110110110, .char0),
   (wireWord 14 0b10110110110110, .char1),
   (wireWord 13 0b1010110110110, .char2),
   (wireWord 12 0b101010110110, .char3),
   (wireWord 11 0b10101010110, .char4),
   (wireWord 10 0b1010101010, .char5),
   (wireWord 11 0b11010101010, .char6),
   (wireWord 12 0b110110101010, .char7),
   (wireWord 13 0b1101101101010, .char8),
   (wireWord 14 0b11011011011010, .char9)]

/-- Space, newline and the punctuation of format `morse` (40_symbol_table.md R101, column "bits"). -/
def markRows : List (List Bit × Instr) := [
   (wireWord 4 0b1110, .charSpace),
   (wireWord 5 0b11110, .charLF),
   (wireWord 15 0b101101011010110, .charPeriod),
   (wireWord 16 0b1101101010110110, .charComma),
   (wireWord 14 0b10101101101010, .charQuestion)]

/-- The rows of format `morse`: the word is the bits of the character's symbols, without the `CharBreak` that
`CHAR c` adds (log entry 8), at the default `LEN` and `TABLE`; DESIGN CHOICE (log entry 22): these words name the
rows whatever the configuration. -/
def morseRows : List (List Bit × Instr) := letterRows ++ (digitRows ++ markRows)

/-- The row whose word these bits are. -/
def decodeRow (rows : List (List Bit × Instr)) (bits : List Bit) : Result Reserved Instr :=
  match rows.find? fun r => r.1 = bits with
  | some r => .ok r.2
  | none => .err .noRow

/-- The decoder: total, rejecting by name. A command word is read at the configured `SAMPLE_W`. DESIGN CHOICE (log
entry 22): a line-code word is matched against the rows as spec/opcode_table.json writes them, at the default
`LEN`, `SP` and `TABLE`, whatever `cfg` is; the row then runs the bits of its expansion at the machine's own
configuration (`State.feedSymbol`, `State.feedChar`, `execStart`), so under another configuration the bits fed can
differ from the word presented. -/
def decode (cfg : Cfg) : HostWord → Result Reserved Instr
  | .op w => decodeOp cfg w
  | .bitrun bits => decodeRow bitrunRows bits
  | .morse bits => decodeRow morseRows bits

/-! ### Words numbered as spec/opcode_table.json numbers them -/

/-- A line-code word without the `Lo`s in front of its first `Hi`: every row's word but that of `CharBreak`
(a single `Lo`) begins with `Hi`, so a number determines the row (log entry 10). -/
def stripLo : List Bit → List Bit
  | .lo :: b :: l => stripLo (b :: l)
  | l => l

/-- What a host script presents for a table word of `nbits` bits: 32 bits are a command word; a shorter word is
line code, read as `bitrun` where that format has the row and as `morse` otherwise (log entries 9 and 10). -/
def HostWord.ofTableWord (nbits w : Nat) : HostWord :=
  if nbits = 32 then .op (BitVec.ofNat 32 w)
  else
    let bits := stripLo (wireWord nbits w)
    match decodeRow bitrunRows bits with
    | .ok _ => .bitrun bits
    | .err _ => .morse bits

/-- The instruction the decoder reads from a word numbered as the table numbers it, at the default configuration,
the one the table is written for. -/
def decodeTableWord (nbits w : Nat) : Option Instr :=
  match decode Machine.defaultCfg (.ofTableWord nbits w) with
  | .ok i => some i
  | .err _ => none

/-! ### The encoder -/

/-- A command word from its operation code `cmd[31:28]` and the value of `cmd[27:0]` (30_encoding.md R73). -/
def opWord (code operand : Nat) : HostWord := .op (BitVec.ofNat 32 (code * 2 ^ 28 + operand))

/-- The word of a well-formed instruction (30_encoding.md R72, R73; spec/opcode_table.json). Operand bits the
instruction ignores are zero. -/
def encode : Instr → HostWord
  | .bit b => opWord 0x1 (bitCode b)
  | .sample v => opWord 0x2 v.toNat
  | .new => opWord 0x3 0
  | .setthr v => opWord 0x4 v.toNat
  | .rdmsg i => opWord 0x5 i.toNat
  | .enc c => opWord 0x8 c.toNat
  | .dec q => opWord 0x9 (q.length * 2 ^ 21 + packSymbols q)
  | .s2b s => opWord 0xA (symbolCode s)
  | .b2s r => opWord 0xB (r.length * 2 ^ 8 + packBits r)
  | .symDot => .bitrun (wireWord 2 0b10)
  | .symDash => .bitrun (wireWord 3 0b110)
  | .symCharBreak => .bitrun (wireWord 1 0b0)
  | .symWordBreak => .bitrun (wireWord 4 0b1110)
  | .symLineBreak => .bitrun (wireWord 5 0b11110)
  | .start => .bitrun (wireWord 8 0b11111110)
  | .charA => .morse (wireWord 5 0b10110)
  | .charB => .morse (wireWord 9 0b110101010)
  | .charC => .morse (wireWord 10 0b1101011010)
  | .charD => .morse (wireWord 7 0b1101010)
  | .charE => .morse (wireWord 2 0b10)
  | .charF => .morse (wireWord 9 0b101011010)
  | .charG => .morse (wireWord 8 0b11011010)
  | .charH => .morse (wireWord 8 0b10101010)
  | .charI => .morse (wireWord 4 0b1010)
  | .charJ => .morse (wireWord 11 0b10110110110)
  | .charK => .morse (wireWord 8 0b11010110)
  | .charL => .morse (wireWord 9 0b101101010)
  | .charM => .morse (wireWord 6 0b110110)
  | .charN => .morse (wireWord 5 0b11010)
  | .charO => .morse (wireWord 9 0b110110110)
  | .charP => .morse (wireWord 10 0b1011011010)
  | .charQ => .morse (wireWord 11 0b11011010110)
  | .charR => .morse (wireWord 7 0b1011010)
  | .charS => .morse (wireWord 6 0b101010)
  | .charT => .morse (wireWord 3 0b110)
  | .charU => .morse (wireWord 7 0b1010110)
  | .charV => .morse (wireWord 9 0b101010110)
  | .charW => .morse (wireWord 8 0b10110110)
  | .charX => .morse (wireWord 10 0b1101010110)
  | .charY => .morse (wireWord 11 0b11010110110)
  | .charZ => .morse (wireWord 10 0b1101101010)
  | .char0 => .morse (wireWord 15 0b110110110110110)
  | .char1 => .morse (wireWord 14 0b10110110110110)
  | .char2 => .morse (wireWord 13 0b1010110110110)
  | .char3 => .morse (wireWord 12 0b101010110110)
  | .char4 => .morse (wireWord 11 0b10101010110)
  | .char5 => .morse (wireWord 10 0b1010101010)
  | .char6 => .morse (wireWord 11 0b11010101010)
  | .char7 => .morse (wireWord 12 0b110110101010)
  | .char8 => .morse (wireWord 13 0b1101101101010)
  | .char9 => .morse (wireWord 14 0b11011011011010)
  | .charSpace => .morse (wireWord 4 0b1110)
  | .charLF => .morse (wireWord 5 0b11110)
  | .charPeriod => .morse (wireWord 15 0b101101011010110)
  | .charComma => .morse (wireWord 16 0b1101101010110110)
  | .charQuestion => .morse (wireWord 14 0b10101101101010)

/-! ### Which line-code row an instruction is -/

/-- The symbol of a `SYM s` row (30_encoding.md R83). -/
def Instr.symbol? : Instr → Option MorseSymbol
  | .symDot => some .dot
  | .symDash => some .dash
  | .symCharBreak => some .charBreak
  | .symWordBreak => some .wordBreak
  | .symLineBreak => some .lineBreak
  | _ => none

/-- The character code of a `CHAR c` row (40_symbol_table.md R101, column "code"). -/
def Instr.charCode? : Instr → Option Byte
  | .charA => some 0x61#8
  | .charB => some 0x62#8
  | .charC => some 0x63#8
  | .charD => some 0x64#8
  | .charE => some 0x65#8
  | .charF => some 0x66#8
  | .charG => some 0x67#8
  | .charH => some 0x68#8
  | .charI => some 0x69#8
  | .charJ => some 0x6A#8
  | .charK => some 0x6B#8
  | .charL => some 0x6C#8
  | .charM => some 0x6D#8
  | .charN => some 0x6E#8
  | .charO => some 0x6F#8
  | .charP => some 0x70#8
  | .charQ => some 0x71#8
  | .charR => some 0x72#8
  | .charS => some 0x73#8
  | .charT => some 0x74#8
  | .charU => some 0x75#8
  | .charV => some 0x76#8
  | .charW => some 0x77#8
  | .charX => some 0x78#8
  | .charY => some 0x79#8
  | .charZ => some 0x7A#8
  | .char0 => some 0x30#8
  | .char1 => some 0x31#8
  | .char2 => some 0x32#8
  | .char3 => some 0x33#8
  | .char4 => some 0x34#8
  | .char5 => some 0x35#8
  | .char6 => some 0x36#8
  | .char7 => some 0x37#8
  | .char8 => some 0x38#8
  | .char9 => some 0x39#8
  | .charSpace => some 0x20#8
  | .charLF => some 0x0A#8
  | .charPeriod => some 0x2E#8
  | .charComma => some 0x2C#8
  | .charQuestion => some 0x3F#8
  | _ => none

end Sys2Proof
end

