-- ==== Sys2Proof/Machine/State.lean ====
section
/-! DEFINITION. The state of the core, its response and status outputs, what the host is going to present, and
the state after reset. All of it is plain data. -/

namespace Sys2Proof.Machine

/-- The Parser in the normative tagged form of 10_state.md R20: the tag is the register `STATE` (R22), and each
state owns its payload. Every list has its oldest element first (R54 of 20_memory.md). -/
inductive Parser where
  /-- `WaitingForStart`: the sliding window, `WIN` and `WIN_LEN` (R23, R24) -/
  | waitingForStart (win : List Bit)
  /-- `ListeningForMessage`: the BitRun, `RUN` and `RUN_LEN` (R25, R26), and the SymbolSequence, `SEQ` and
  `SEQ_LEN` (R27, 20_memory.md R51) -/
  | listening (run : List Bit) (seq : List MorseSymbol)
  /-- `Processing`: the completed SymbolSequence, and the message, `MSG` and `MSG_LEN` (R28, 20_memory.md R52) -/
  | processing (seq : List MorseSymbol) (msg : List Byte)
  deriving DecidableEq, Repr

/-- The response record of one operation (30_encoding.md R80); a field that no rule sets is zero. -/
structure Rsp where
  lock : Bool := false
  symValid : Bool := false
  sym : BitVec 3 := 0#3
  done : Bool := false
  err : BitVec 3 := 0#3
  ignored : Bool := false
  data : Data := 0#24
  deriving DecidableEq, Repr

/-- What the host drives on the input ports at one rising clock edge (30_encoding.md R78): `rst`, and a command
or none (`cmd_valid`). -/
structure HostInput where
  rst : Bool := false
  cmd : Option HostWord := none
  deriving DecidableEq, Repr

/-- The whole machine. -/
structure State where
  /-- the build-time parameters and ROM contents (00_scope.md R6, 20_memory.md R53): no step writes them
  (log entry 1) -/
  cfg : Cfg
  /-- the Parser (10_state.md R20) -/
  parser : Parser
  /-- the threshold register `THR` (10_state.md R29) -/
  thr : Sample
  /-- the output `rsp_valid` after the last edge (30_encoding.md R78) -/
  rspValid : Bool
  /-- the response outputs after the last edge (30_encoding.md R80); no operation reads them -/
  rsp : Rsp
  /-- the MODEL's own: the responses presented so far, oldest first, which R248 of 70_reset_and_hazards.md says
  are observed (log entry 6) -/
  trace : List Rsp
  /-- the MODEL's own: what the host presents at the coming edges, first first (log entry 4) -/
  inputs : List HostInput
  deriving DecidableEq, Repr

/-- The flat registers of 10_state.md R22 to R28, as numbers: a computed view of the Parser (R36), element `i` of a
list at bit `i`. The cells of `SEQ` and `MSG` below their lengths are the Parser's own lists. -/
structure FlatRegs where
  state : BitVec 2
  win : Nat
  winLen : Nat
  run : Nat
  runLen : Nat
  seqLen : Nat
  msgLen : Nat
  deriving DecidableEq, Repr

/-- Why a step stops with a fault: never. "There is no fault", 00_scope.md R9, 60_exceptions.md R200: the four
error kinds are values of the response. No constructor, so no meaning can raise one; safe. -/
inductive Fault where
  deriving DecidableEq, Repr

/-- Why a step is refused. -/
inductive Refusal where
  /-- An instruction with no meaning yet, by its mnemonic: raised by a refused arm of `exec` only, and no arm of
  this model is one; safe. -/
  | notModelled (mnemonic : String)
  deriving DecidableEq, Repr

/-- `fresh()`, the freshly constructed Parser (10_state.md R40). -/
def Parser.fresh : Parser := .waitingForStart []

/-- The state right after reset (10_state.md R41): fresh Parser, `THR` at `THR_RESET`, response outputs zero, in
a core built with the default configuration. `trace` and `inputs` are the model's own and start empty
(DESIGN CHOICE, log entries 4 and 6). -/
def State.reset : State where
  cfg := defaultCfg
  parser := .fresh
  thr := defaultCfg.thrReset
  rspValid := false
  rsp := {}
  trace := []
  inputs := []

end Sys2Proof.Machine
end

