-- ==== Sys2Proof/Machine/Flags.lean ====
section
/-! DEFINITION. What a processor would keep as flags: the fields of one operation's response (10_state.md R31,
30_encoding.md R80). -/

namespace Sys2Proof.Machine

/-- The code of an error kind in the field `err`; 0 is "no error" (60_exceptions.md R201). -/
def errorCode : ErrorKind → BitVec 3
  | .unsupportedChar => 1#3
  | .unknownBitSequence => 2#3
  | .unknownSequence => 3#3
  | .fullBuffer => 4#3

/-- `Rsp.lock <- 1` (43_decoder_state_machine.md R150). -/
def Rsp.locked : Rsp := { lock := true }

/-- `Rsp.sym_valid <- 1; Rsp.sym <- code(s)` (43_decoder_state_machine.md R150, 41_timing_codec.md R125). -/
def Rsp.resolved (s : MorseSymbol) : Rsp := { symValid := true, sym := BitVec.ofNat 3 (symbolCode s) }

/-- `Rsp.ignored <- 1` (43_decoder_state_machine.md R150, 45_host_port_ops.md R194). -/
def Rsp.ignoring : Rsp := { ignored := true }

/-- `Rsp.done <- 1` (43_decoder_state_machine.md R150). -/
def Rsp.withDone (r : Rsp) : Rsp := { r with done := true }

/-- `Rsp.err <- code(e)`, the other fields as the operation has set them (60_exceptions.md R210). -/
def Rsp.withErr (r : Rsp) (e : ErrorKind) : Rsp := { r with err := errorCode e }

/-- `Rsp.data <- d`. -/
def Rsp.withData (r : Rsp) (d : Data) : Rsp := { r with data := d }

end Sys2Proof.Machine
end

