-- ==== Sys2Proof/Machine/Ops.lean ====
section
/-! DEFINITION. The named operations over the state: register updates, the response and status outputs, the
buffers SEQ and MSG, error entry, and what a clock edge does that performs no operation. -/

namespace Sys2Proof.Machine

/-! ### Registers and outputs -/

/-- `Parser <- p`. -/
def State.withParser (s : State) (p : Parser) : State := { s with parser := p }

/-- `THR <- v` (45_host_port_ops.md R190). -/
def State.withThr (s : State) (v : Sample) : State := { s with thr := v }

/-- What the host will present, replaced (log entry 4). -/
def State.withInputs (s : State) (l : List HostInput) : State := { s with inputs := l }

/-- Present the response of one operation: `rsp_valid = 1` (30_encoding.md R78), and the response joins the list
of those the host has seen (70_reset_and_hazards.md R248). -/
def State.respond (s : State) (r : Rsp) : State :=
  { s with rspValid := true, rsp := r, trace := s.trace ++ [r] }

/-- An edge at which no command is accepted: no state change and no response, so the response outputs return to
zero (45_host_port_ops.md R195; `rsp_valid` is up for one cycle, 30_encoding.md R78; DESIGN CHOICE, log entry 19). -/
def State.idle (s : State) : State := { s with rspValid := false, rsp := {} }

/-- An edge at which `rst` is 1: the values of 10_state.md R41, whatever command is presented (30_encoding.md R78,
60_exceptions.md R207). The ROMs are not changed (20_memory.md R53); what the host has seen and will present is
not the core's (log entry 13). -/
def State.resetCore (s : State) : State :=
  { s with parser := .fresh, thr := s.cfg.thrReset, rspValid := false, rsp := {} }

/-- The tag register `STATE` (10_state.md R22). -/
def Parser.tag : Parser → BitVec 2
  | .waitingForStart _ => 0#2
  | .listening _ _ => 1#2
  | .processing _ _ => 2#2

/-- `MSG`, the valid cells (20_memory.md R52); empty outside `Processing` (10_state.md R28). -/
def Parser.msg : Parser → List Byte
  | .processing _ m => m
  | .waitingForStart _ | .listening _ _ => []

/-- `SEQ`, the valid cells (20_memory.md R51); empty in `WaitingForStart` (10_state.md R35). -/
def Parser.seq : Parser → List MorseSymbol
  | .waitingForStart _ => []
  | .listening _ q | .processing q _ => q

/-- `WIN`, the valid bits (10_state.md R23); empty outside `WaitingForStart` (R35). -/
def Parser.win : Parser → List Bit
  | .waitingForStart w => w
  | .listening _ _ | .processing _ _ => []

/-- `RUN`, the valid bits (10_state.md R25); empty outside `ListeningForMessage` (R35). -/
def Parser.run : Parser → List Bit
  | .listening r _ => r
  | .waitingForStart _ | .processing _ _ => []

/-- The flat registers of a Parser (10_state.md R22 to R28, R36). -/
def Parser.flat (p : Parser) : FlatRegs where
  state := p.tag
  win := packBits p.win
  winLen := p.win.length
  run := packBits p.run
  runLen := p.run.length
  seqLen := p.seq.length
  msgLen := p.msg.length

/-- The status output `state[1:0]` (30_encoding.md R79). -/
def State.stateOut (s : State) : BitVec 2 := s.parser.tag

/-- The status output `msg_len[7:0]` (30_encoding.md R79). -/
def State.msgLenOut (s : State) : BitVec 8 := BitVec.ofNat 8 s.parser.msg.length

/-- The output `cmd_ready` between operations: accept-and-respond is one step, so no command is in flight there
and the core is ready (30_encoding.md R78, 70_reset_and_hazards.md R232; log entry 5). -/
def State.cmdReady (_ : State) : Bool := true

/-! ### The buffers -/

/-- `SeqAppend(s)` (20_memory.md R51). -/
def seqAppend (cfg : Cfg) (seq : List MorseSymbol) (s : MorseSymbol) : Result ErrorKind (List MorseSymbol) :=
  if seq.length = cfg.symseqCap then .err .fullBuffer else .ok (seq ++ [s])

/-- `MsgAppend(c)` (20_memory.md R52). -/
def msgAppend (cfg : Cfg) (msg : List Byte) (ch : Byte) : Result ErrorKind (List Byte) :=
  if msg.length = cfg.msgCap then .err .fullBuffer else .ok (msg ++ [ch])

/-- `MsgRead(i)`: the cell in `Processing` below `MSG_LEN`, else 0x00 (20_memory.md R52, R60). -/
def msgRead (p : Parser) (i : Byte) : Byte := p.msg.getD i.toNat 0x00#8

/-- The buffers are within their capacities (20_memory.md R51, R52). A buffer is a list whose positions are its
addresses, so equal contents are equal data (log entry 2). -/
def Memory.wf (s : State) : Bool :=
  s.parser.seq.length ≤ s.cfg.symseqCap && s.parser.msg.length ≤ s.cfg.msgCap

/-! ### Error entry

There is no return operation: error entry is complete within the operation that raised it (60_exceptions.md
R212). -/

/-- Error entry, "full reset" (60_exceptions.md R210): the Parser becomes fresh; the response reports the error
and keeps what the operation had set; nothing is saved (R203). -/
def errorEntry (r : Rsp) (e : ErrorKind) : Parser × Rsp := (.fresh, r.withErr e)

end Sys2Proof.Machine
end

