-- ==== Sys2Proof/Machine/FrameSync.lean ====
section
/-! DEFINITION. The Frame Synchronizer (42_frame_synchronizer.md): the push function, over lists and over the flat
registers. -/

namespace Sys2Proof.Machine

/-- `fs_push(win, b)`: the new window and whether lock was achieved (42_frame_synchronizer.md R137). -/
def fsPush (cfg : Cfg) (win : List Bit) (b : Bit) : List Bit × Bool :=
  let w := if win.length < cfg.spLen then win ++ [b] else win.tail ++ [b]
  if w.length = cfg.spLen ∧ w = cfg.sp then ([], true) else (w, false)

/-- `fs_push` used alone on a stream: the window after it and the lock report of each push, first push first
(42_frame_synchronizer.md R140). The machine stops feeding the synchronizer at lock. -/
def fsStream (cfg : Cfg) (win : List Bit) : List Bit → List Bit × List Bool
  | [] => (win, [])
  | b :: l =>
    let o := fsPush cfg win b
    let rest := fsStream cfg o.1 l
    (rest.1, o.2 :: rest.2)

/-- `fs_push` in the flat registers `WIN`, `WIN_LEN` (42_frame_synchronizer.md R138): the new values and `lock`.
The machine runs `fsPush`; that the two agree is a statement. -/
def fsPushFlat (cfg : Cfg) (win winLen : Nat) (b : Bit) : (Nat × Nat) × Bool :=
  let w := if winLen < cfg.spLen then win ||| (bitCode b <<< winLen)
           else (win >>> 1) ||| (bitCode b <<< (cfg.spLen - 1))
  let n := if winLen < cfg.spLen then winLen + 1 else cfg.spLen
  if n = cfg.spLen ∧ w = packBits cfg.sp then ((0, 0), true) else ((w, n), false)

end Sys2Proof.Machine
end

