-- ==== Sys2Proof/Machine/Operands.lean ====
section
/-! DEFINITION. Operand forms: the threshold that turns a raw sample into a `Bit`, and the packings of the `data`
field. The assembly of operands from the command word (30_encoding.md R77) is in Sys2Proof/Decode.lean. -/

namespace Sys2Proof.Machine

/-- The `Bit` of a raw sample: `Hi` iff `v > THR`, an unsigned comparison of two `SAMPLE_W`-bit numbers
(43_decoder_state_machine.md R166). -/
def sampleBit (thr v : Sample) : Bit := if thr.toNat < v.toNat then .hi else .lo

/-- `zext_24(b)`: the thresholded bit in `data[0]` (43_decoder_state_machine.md R166). -/
def sampleData (b : Bit) : Data := BitVec.ofNat 24 (bitCode b)

/-- `zext_24` of a character (45_host_port_ops.md R192). -/
def charData (ch : Byte) : Data := ch.setWidth 24

/-- `{ len(q)[2:0], pack(q)[17:0] }` (40_symbol_table.md R105). -/
def encData (q : List MorseSymbol) : Data :=
  (BitVec.ofNat 3 q.length ++ BitVec.ofNat 18 (packSymbols q)).setWidth 24

/-- `{ 1'b1, ch[7:0] }` (40_symbol_table.md R106). -/
def decData (ch : Byte) : Data := (1#1 ++ ch).setWidth 24

/-- `{ len(r)[3:0], pack(r)[7:0] }` (41_timing_codec.md R124). -/
def s2bData (r : List Bit) : Data :=
  (BitVec.ofNat 4 r.length ++ BitVec.ofNat 8 (packBits r)).setWidth 24

end Sys2Proof.Machine
end

