-- ==== Sys2Proof/Machine/SymbolTable.lean ====
section
/-! DEFINITION. The Symbol Table (40_symbol_table.md): its two functions and the operations ENC and DEC. -/

namespace Sys2Proof.Machine

/-- Case folding: `A` to `Z` are replaced by the code plus 0x20 (40_symbol_table.md R102). -/
def fold (c : Byte) : Byte := if isUpper c then c + 0x20#8 else c

/-- `encode(c)`: the row of the folded character (40_symbol_table.md R103). A code is supported exactly when the
configured `TABLE` has a row for it, whatever the code is (DESIGN CHOICE, log entry 23). -/
def stEncode (cfg : Cfg) (c : Byte) : Result ErrorKind (List MorseSymbol) :=
  match cfg.table.find? fun row => row.1 = fold c with
  | some row => .ok row.2
  | none => .err .unsupportedChar

/-- `decode(q)`: exact match on the whole list; the empty list is no character and no error (40_symbol_table.md
R104). -/
def stDecode (cfg : Cfg) (q : List MorseSymbol) : Result ErrorKind (Option Byte) :=
  if q = [] then .ok none
  else
    match cfg.table.find? fun row => row.2 = q with
    | some row => .ok (some row.1)
    | none => .err .unknownSequence

/-- The response of ENC (40_symbol_table.md R105). -/
def encRsp (cfg : Cfg) (c : Byte) : Rsp :=
  match stEncode cfg c with
  | .ok q => Rsp.withData {} (encData q)
  | .err e => Rsp.withErr {} e

/-- The response of DEC (40_symbol_table.md R106). -/
def decRsp (cfg : Cfg) (q : List MorseSymbol) : Rsp :=
  match stDecode cfg q with
  | .ok (some ch) => Rsp.withData {} (decData ch)
  | .ok none => {}
  | .err e => Rsp.withErr {} e

/-- ENC c (40_symbol_table.md R105). -/
def execEnc (c : Byte) (s : State) : Host.Outcome State Fault Refusal :=
  .next (s.respond (encRsp s.cfg c))

/-- DEC q (40_symbol_table.md R106). -/
def execDec (q : List MorseSymbol) (s : State) : Host.Outcome State Fault Refusal :=
  .next (s.respond (decRsp s.cfg q))

end Sys2Proof.Machine
end

