-- ==== Sys2Proof/Machine/TimingCodec.lean ====
section
/-! DEFINITION. The Timing Codec (41_timing_codec.md): its two functions and the operations S2B and B2S. -/

namespace Sys2Proof.Machine

/-- `symbol_to_bits(s) = rep(Hi, LEN(s) - 1) ++ [Lo]` (41_timing_codec.md R122). -/
def symbolToBits (cfg : Cfg) (s : MorseSymbol) : List Bit := List.replicate (cfg.len s - 1) .hi ++ [.lo]

/-- The symbols, in the order of 30_encoding.md R75. -/
def allSymbols : List MorseSymbol := [.dot, .dash, .charBreak, .wordBreak, .lineBreak]

/-- The symbol `s` with `LEN(s) == n`; unique when `LEN` is injective (41_timing_codec.md R123; log entry 20). -/
def symbolOfLen (cfg : Cfg) (n : Nat) : Option MorseSymbol := allSymbols.find? fun s => cfg.len s = n

/-- `bits_to_symbol(r)`: `N-1` times `Hi`, then one `Lo`, and `N` is the length of a symbol (41_timing_codec.md
R123). -/
def bitsToSymbol (cfg : Cfg) (r : List Bit) : Result ErrorKind MorseSymbol :=
  if r.dropLast.all (· = .hi) ∧ r.getLast? = some .lo then
    match symbolOfLen cfg r.length with
    | some s => .ok s
    | none => .err .unknownBitSequence
  else .err .unknownBitSequence

/-- The response of B2S (41_timing_codec.md R125). -/
def b2sRsp (cfg : Cfg) (r : List Bit) : Rsp :=
  match bitsToSymbol cfg r with
  | .ok s => .resolved s
  | .err e => Rsp.withErr {} e

/-- S2B s (41_timing_codec.md R124). -/
def execS2b (y : MorseSymbol) (s : State) : Host.Outcome State Fault Refusal :=
  .next (s.respond (Rsp.withData {} (s2bData (symbolToBits s.cfg y))))

/-- B2S r (41_timing_codec.md R125). -/
def execB2s (r : List Bit) (s : State) : Host.Outcome State Fault Refusal :=
  .next (s.respond (b2sRsp s.cfg r))

end Sys2Proof.Machine
end

