-- ==== Sys2Proof/Machine/Decoder.lean ====
section
/-! DEFINITION. The Decoder State Machine (43_decoder_state_machine.md): the Processing step, one bit, and the
operations BIT, SAMPLE and NEW. -/

namespace Sys2Proof.Machine

/-! ### Processing -/

/-- The sub-lists of `q` between `CharBreak`s: `k` of them give `k + 1` sub-lists, in order, possibly empty
(43_decoder_state_machine.md R160). -/
def splitBreaks : List MorseSymbol → List (List MorseSymbol)
  | [] => [[]]
  | s :: q =>
    if s = .charBreak then [] :: splitBreaks q
    else
      match splitBreaks q with
      | [] => [[s]]
      | sub :: subs => (s :: sub) :: subs

/-- The loop of `process` over the sub-lists, `m` the message so far (43_decoder_state_machine.md R160, R161). -/
def processSubs (cfg : Cfg) : List (List MorseSymbol) → List Byte → Result ErrorKind (List Byte)
  | [], m => .ok m
  | sub :: subs, m =>
    if sub = [] ∨ sub = [.lineBreak] then processSubs cfg subs m
    else
      match stDecode cfg sub with
      | .err e => .err e
      | .ok none => processSubs cfg subs m
      | .ok (some ch) =>
        match msgAppend cfg m ch with
        | .err e => .err e
        | .ok m' => processSubs cfg subs m'

/-- `process(q)` (43_decoder_state_machine.md R160). -/
def process (cfg : Cfg) (q : List MorseSymbol) : Result ErrorKind (List Byte) :=
  processSubs cfg (splitBreaks q) []

/-! ### One bit -/

/-- `WaitingForStart`: the bit goes through the Frame Synchronizer (43_decoder_state_machine.md R150, R152,
R153). -/
def bitWaiting (cfg : Cfg) (win : List Bit) (b : Bit) : Parser × Rsp :=
  let o := fsPush cfg win b
  if o.2 then (.listening [] [], .locked) else (.waitingForStart o.1, {})

/-- The symbol just appended was the `LineBreak`: Processing, in the same operation (43_decoder_state_machine.md
R150, R159, R162, R163). -/
def finishMessage (cfg : Cfg) (q : List MorseSymbol) : Parser × Rsp :=
  match process cfg q with
  | .err e => errorEntry (.resolved .lineBreak) e
  | .ok m => (.processing q m, (Rsp.resolved .lineBreak).withDone)

/-- `ListeningForMessage`, the completed run `r` ends in `Lo` (43_decoder_state_machine.md R150, R154 to R157; the
order of the checks is 60_exceptions.md R206). -/
def bitLo (cfg : Cfg) (r : List Bit) (seq : List MorseSymbol) : Parser × Rsp :=
  match bitsToSymbol cfg r with
  | .err e => errorEntry {} e
  | .ok s =>
    match seqAppend cfg seq s with
    | .err e => errorEntry (.resolved s) e
    | .ok q => if s = .lineBreak then finishMessage cfg q else (.listening [] q, .resolved s)

/-- `ListeningForMessage`, the run `r` was extended by a `Hi` (43_decoder_state_machine.md R150, R158). -/
def bitHi (cfg : Cfg) (r : List Bit) (seq : List MorseSymbol) : Parser × Rsp :=
  if r.length = cfg.bitrunCap then errorEntry {} .fullBuffer else (.listening r seq, {})

/-- `ListeningForMessage`: the bit is appended to the run first (43_decoder_state_machine.md R154). -/
def bitListening (cfg : Cfg) (run : List Bit) (seq : List MorseSymbol) : Bit → Parser × Rsp
  | .lo => bitLo cfg (run ++ [.lo]) seq
  | .hi => bitHi cfg (run ++ [.hi]) seq

/-- What one time-slot value does to the Parser, and its response (43_decoder_state_machine.md R150). -/
def parserBit (cfg : Cfg) (p : Parser) (b : Bit) : Parser × Rsp :=
  match p with
  | .waitingForStart win => bitWaiting cfg win b
  | .listening run seq => bitListening cfg run seq b
  | .processing seq msg => (.processing seq msg, .ignoring)

/-! ### The operations -/

/-- One BIT operation on the machine (43_decoder_state_machine.md R150); `THR` is never touched. -/
def State.feedBit (s : State) (b : Bit) : State :=
  (s.withParser (parserBit s.cfg s.parser b).1).respond (parserBit s.cfg s.parser b).2

/-- One SAMPLE operation on the machine: BIT of the thresholded sample, with the bit reported in `data[0]`
(43_decoder_state_machine.md R166). -/
def State.feedSample (s : State) (v : Sample) : State :=
  let b := sampleBit s.thr v
  (s.withParser (parserBit s.cfg s.parser b).1).respond ((parserBit s.cfg s.parser b).2.withData (sampleData b))

/-- A list of BIT operations, first first: the shorthand `BITS` (30_encoding.md R91). An empty list presents
nothing, as at an idle edge. -/
def State.feedBits (s : State) (l : List Bit) : State := l.foldl State.feedBit s.idle

/-- BIT b (43_decoder_state_machine.md R150). -/
def execBit (b : Bit) (s : State) : Host.Outcome State Fault Refusal := .next (s.feedBit b)

/-- SAMPLE v (43_decoder_state_machine.md R166). -/
def execSample (v : Sample) (s : State) : Host.Outcome State Fault Refusal := .next (s.feedSample v)

/-- NEW: the Parser becomes fresh, `THR` stays, the response is all zero (43_decoder_state_machine.md R168). -/
def execNew (s : State) : Host.Outcome State Fault Refusal := .next ((s.withParser .fresh).respond {})

end Sys2Proof.Machine
end

