-- ==== Sys2Proof/Machine/Characters.lean ====
section
/-! DEFINITION. The `morse` rows: the pseudo-instruction `CHAR c` of 30_encoding.md R92 for each character of
40_symbol_table.md R101, run as the BIT operations it expands to (DESIGN CHOICE, log entry 7). -/

namespace Sys2Proof.Machine

/-- The bits of `CHAR c`: `SYM` of each symbol of `encode(c)`, then `SYM CharBreak` (30_encoding.md R92). No bits when
the configured table has no row for `c`: then `encode(c)` fails and nothing is sent (DESIGN CHOICE, log
entry 12). -/
def charBits (cfg : Cfg) (c : Byte) : List Bit :=
  match stEncode cfg c with
  | .ok q => (q ++ [MorseSymbol.charBreak]).flatMap (symbolToBits cfg)
  | .err _ => []

/-- `CHAR c` (30_encoding.md R92), at the configured `LEN` and `TABLE` (log entry 22). -/
def State.feedChar (s : State) (c : Byte) : State := s.feedBits (charBits s.cfg c)

/-- CHAR a: `.-` (40_symbol_table.md R101, 30_encoding.md R92). -/
def execCharA (s : State) : Host.Outcome State Fault Refusal := .next (s.feedChar 0x61#8)

/-- CHAR b: `-...` (40_symbol_table.md R101, 30_encoding.md R92). -/
def execCharB (s : State) : Host.Outcome State Fault Refusal := .next (s.feedChar 0x62#8)

/-- CHAR c: `-.-.` (40_symbol_table.md R101, 30_encoding.md R92). -/
def execCharC (s : State) : Host.Outcome State Fault Refusal := .next (s.feedChar 0x63#8)

/-- CHAR d: `-..` (40_symbol_table.md R101, 30_encoding.md R92). -/
def execCharD (s : State) : Host.Outcome State Fault Refusal := .next (s.feedChar 0x64#8)

/-- CHAR e: `.` (40_symbol_table.md R101, 30_encoding.md R92). -/
def execCharE (s : State) : Host.Outcome State Fault Refusal := .next (s.feedChar 0x65#8)

/-- CHAR f: `..-.` (40_symbol_table.md R101, 30_encoding.md R92). -/
def execCharF (s : State) : Host.Outcome State Fault Refusal := .next (s.feedChar 0x66#8)

/-- CHAR g: `--.` (40_symbol_table.md R101, 30_encoding.md R92). -/
def execCharG (s : State) : Host.Outcome State Fault Refusal := .next (s.feedChar 0x67#8)

/-- CHAR h: `....` (40_symbol_table.md R101, 30_encoding.md R92). -/
def execCharH (s : State) : Host.Outcome State Fault Refusal := .next (s.feedChar 0x68#8)

/-- CHAR i: `..` (40_symbol_table.md R101, 30_encoding.md R92). -/
def execCharI (s : State) : Host.Outcome State Fault Refusal := .next (s.feedChar 0x69#8)

/-- CHAR j: `.---` (40_symbol_table.md R101, 30_encoding.md R92). -/
def execCharJ (s : State) : Host.Outcome State Fault Refusal := .next (s.feedChar 0x6A#8)

/-- CHAR k: `-.-` (40_symbol_table.md R101, 30_encoding.md R92). -/
def execCharK (s : State) : Host.Outcome State Fault Refusal := .next (s.feedChar 0x6B#8)

/-- CHAR l: `.-..` (40_symbol_table.md R101, 30_encoding.md R92). -/
def execCharL (s : State) : Host.Outcome State Fault Refusal := .next (s.feedChar 0x6C#8)

/-- CHAR m: `--` (40_symbol_table.md R101, 30_encoding.md R92). -/
def execCharM (s : State) : Host.Outcome State Fault Refusal := .next (s.feedChar 0x6D#8)

/-- CHAR n: `-.` (40_symbol_table.md R101, 30_encoding.md R92). -/
def execCharN (s : State) : Host.Outcome State Fault Refusal := .next (s.feedChar 0x6E#8)

/-- CHAR o: `---` (40_symbol_table.md R101, 30_encoding.md R92). -/
def execCharO (s : State) : Host.Outcome State Fault Refusal := .next (s.feedChar 0x6F#8)

/-- CHAR p: `.--.` (40_symbol_table.md R101, 30_encoding.md R92). -/
def execCharP (s : State) : Host.Outcome State Fault Refusal := .next (s.feedChar 0x70#8)

/-- CHAR q: `--.-` (40_symbol_table.md R101, 30_encoding.md R92). -/
def execCharQ (s : State) : Host.Outcome State Fault Refusal := .next (s.feedChar 0x71#8)

/-- CHAR r: `.-.` (40_symbol_table.md R101, 30_encoding.md R92). -/
def execCharR (s : State) : Host.Outcome State Fault Refusal := .next (s.feedChar 0x72#8)

/-- CHAR s: `...` (40_symbol_table.md R101, 30_encoding.md R92). -/
def execCharS (s : State) : Host.Outcome State Fault Refusal := .next (s.feedChar 0x73#8)

/-- CHAR t: `-` (40_symbol_table.md R101, 30_encoding.md R92). -/
def execCharT (s : State) : Host.Outcome State Fault Refusal := .next (s.feedChar 0x74#8)

/-- CHAR u: `..-` (40_symbol_table.md R101, 30_encoding.md R92). -/
def execCharU (s : State) : Host.Outcome State Fault Refusal := .next (s.feedChar 0x75#8)

/-- CHAR v: `...-` (40_symbol_table.md R101, 30_encoding.md R92). -/
def execCharV (s : State) : Host.Outcome State Fault Refusal := .next (s.feedChar 0x76#8)

/-- CHAR w: `.--` (40_symbol_table.md R101, 30_encoding.md R92). -/
def execCharW (s : State) : Host.Outcome State Fault Refusal := .next (s.feedChar 0x77#8)

/-- CHAR x: `-..-` (40_symbol_table.md R101, 30_encoding.md R92). -/
def execCharX (s : State) : Host.Outcome State Fault Refusal := .next (s.feedChar 0x78#8)

/-- CHAR y: `-.--` (40_symbol_table.md R101, 30_encoding.md R92). -/
def execCharY (s : State) : Host.Outcome State Fault Refusal := .next (s.feedChar 0x79#8)

/-- CHAR z: `--..` (40_symbol_table.md R101, 30_encoding.md R92). -/
def execCharZ (s : State) : Host.Outcome State Fault Refusal := .next (s.feedChar 0x7A#8)

/-- CHAR 0: `-----` (40_symbol_table.md R101, 30_encoding.md R92). -/
def execChar0 (s : State) : Host.Outcome State Fault Refusal := .next (s.feedChar 0x30#8)

/-- CHAR 1: `.----` (40_symbol_table.md R101, 30_encoding.md R92). -/
def execChar1 (s : State) : Host.Outcome State Fault Refusal := .next (s.feedChar 0x31#8)

/-- CHAR 2: `..---` (40_symbol_table.md R101, 30_encoding.md R92). -/
def execChar2 (s : State) : Host.Outcome State Fault Refusal := .next (s.feedChar 0x32#8)

/-- CHAR 3: `...--` (40_symbol_table.md R101, 30_encoding.md R92). -/
def execChar3 (s : State) : Host.Outcome State Fault Refusal := .next (s.feedChar 0x33#8)

/-- CHAR 4: `....-` (40_symbol_table.md R101, 30_encoding.md R92). -/
def execChar4 (s : State) : Host.Outcome State Fault Refusal := .next (s.feedChar 0x34#8)

/-- CHAR 5: `.....` (40_symbol_table.md R101, 30_encoding.md R92). -/
def execChar5 (s : State) : Host.Outcome State Fault Refusal := .next (s.feedChar 0x35#8)

/-- CHAR 6: `-....` (40_symbol_table.md R101, 30_encoding.md R92). -/
def execChar6 (s : State) : Host.Outcome State Fault Refusal := .next (s.feedChar 0x36#8)

/-- CHAR 7: `--...` (40_symbol_table.md R101, 30_encoding.md R92). -/
def execChar7 (s : State) : Host.Outcome State Fault Refusal := .next (s.feedChar 0x37#8)

/-- CHAR 8: `---..` (40_symbol_table.md R101, 30_encoding.md R92). -/
def execChar8 (s : State) : Host.Outcome State Fault Refusal := .next (s.feedChar 0x38#8)

/-- CHAR 9: `----.` (40_symbol_table.md R101, 30_encoding.md R92). -/
def execChar9 (s : State) : Host.Outcome State Fault Refusal := .next (s.feedChar 0x39#8)

/-- CHAR space: `_` (40_symbol_table.md R101, 30_encoding.md R92). -/
def execCharSpace (s : State) : Host.Outcome State Fault Refusal := .next (s.feedChar 0x20#8)

/-- CHAR LF: `$` (40_symbol_table.md R101, 30_encoding.md R92). -/
def execCharLF (s : State) : Host.Outcome State Fault Refusal := .next (s.feedChar 0x0A#8)

/-- CHAR .: `.-.-.-` (40_symbol_table.md R101, 30_encoding.md R92). -/
def execCharPeriod (s : State) : Host.Outcome State Fault Refusal := .next (s.feedChar 0x2E#8)

/-- CHAR ,: `--..--` (40_symbol_table.md R101, 30_encoding.md R92). -/
def execCharComma (s : State) : Host.Outcome State Fault Refusal := .next (s.feedChar 0x2C#8)

/-- CHAR ?: `..--..` (40_symbol_table.md R101, 30_encoding.md R92). -/
def execCharQuestion (s : State) : Host.Outcome State Fault Refusal := .next (s.feedChar 0x3F#8)

end Sys2Proof.Machine
end

