-- ==== Sys2Proof/Machine/HostPort.lean ====
section
/-! DEFINITION. The host port operations (45_host_port_ops.md): SETTHR, RDMSG, and what the core does with a word
that spells no instruction. -/

namespace Sys2Proof.Machine

/-- SETTHR v (45_host_port_ops.md R190). -/
def execSetthr (v : Sample) (s : State) : Host.Outcome State Fault Refusal := .next ((s.withThr v).respond {})

/-- RDMSG i (45_host_port_ops.md R192). -/
def execRdmsg (i : Byte) (s : State) : Host.Outcome State Fault Refusal :=
  .next (s.respond (Rsp.withData {} (charData (msgRead s.parser i))))

/-- A word that spells no instruction. A reserved command word is accepted and answered with `ignored = 1`, no
state changes (45_host_port_ops.md R194). A line-code word that is no row is the shorthand `BITS` of its bits
(30_encoding.md R91; DESIGN CHOICE, log entry 11). -/
def State.undecoded (s : State) : HostWord → State
  | .op _ => s.respond .ignoring
  | .bitrun bits => s.feedBits bits
  | .morse bits => s.feedBits bits

end Sys2Proof.Machine
end

