-- ==== Sys2Proof/Machine/LineCode.lean ====
section
/-! DEFINITION. The `bitrun` rows: the pseudo-instructions `SYM s` and `START` of 30_encoding.md R92, run as the BIT
operations they expand to (DESIGN CHOICE, log entry 7). -/

namespace Sys2Proof.Machine

/-- `SYM s` is `BITS symbol_to_bits(s)` (30_encoding.md R92), at the configured `LEN` (41_timing_codec.md R121); the
word that names the row is the default's (log entry 22). -/
def State.feedSymbol (s : State) (y : MorseSymbol) : State := s.feedBits (symbolToBits s.cfg y)

/-- SYM Dot (30_encoding.md R83, R92). -/
def execSymDot (s : State) : Host.Outcome State Fault Refusal := .next (s.feedSymbol .dot)

/-- SYM Dash (30_encoding.md R83, R92). -/
def execSymDash (s : State) : Host.Outcome State Fault Refusal := .next (s.feedSymbol .dash)

/-- SYM CharBreak (30_encoding.md R83, R92). -/
def execSymCharBreak (s : State) : Host.Outcome State Fault Refusal := .next (s.feedSymbol .charBreak)

/-- SYM WordBreak (30_encoding.md R83, R92). -/
def execSymWordBreak (s : State) : Host.Outcome State Fault Refusal := .next (s.feedSymbol .wordBreak)

/-- SYM LineBreak (30_encoding.md R83, R92). -/
def execSymLineBreak (s : State) : Host.Outcome State Fault Refusal := .next (s.feedSymbol .lineBreak)

/-- START is `BITS` of the list `SP` (30_encoding.md R84, R92), the configured one (log entry 22). -/
def execStart (s : State) : Host.Outcome State Fault Refusal := .next (s.feedBits s.cfg.sp)

end Sys2Proof.Machine
end

