-- ==== Sys2Proof/Machine/Dispatch.lean ====
section
/-! DEFINITION. The dispatch: each instruction's meaning. -/

namespace Sys2Proof.Machine

def exec (i : Instr) (s : State) : Host.Outcome State Fault Refusal :=
  match i with
  | .bit b => Sys2Proof.Machine.execBit b s
  | .sample v => Sys2Proof.Machine.execSample v s
  | .new => Sys2Proof.Machine.execNew s
  | .setthr v => Sys2Proof.Machine.execSetthr v s
  | .rdmsg k => Sys2Proof.Machine.execRdmsg k s
  | .enc c => Sys2Proof.Machine.execEnc c s
  | .dec q => Sys2Proof.Machine.execDec q s
  | .s2b y => Sys2Proof.Machine.execS2b y s
  | .b2s r => Sys2Proof.Machine.execB2s r s
  | .symDot => Sys2Proof.Machine.execSymDot s
  | .symDash => Sys2Proof.Machine.execSymDash s
  | .symCharBreak => Sys2Proof.Machine.execSymCharBreak s
  | .symWordBreak => Sys2Proof.Machine.execSymWordBreak s
  | .symLineBreak => Sys2Proof.Machine.execSymLineBreak s
  | .start => Sys2Proof.Machine.execStart s
  | .charA => Sys2Proof.Machine.execCharA s
  | .charB => Sys2Proof.Machine.execCharB s
  | .charC => Sys2Proof.Machine.execCharC s
  | .charD => Sys2Proof.Machine.execCharD s
  | .charE => Sys2Proof.Machine.execCharE s
  | .charF => Sys2Proof.Machine.execCharF s
  | .charG => Sys2Proof.Machine.execCharG s
  | .charH => Sys2Proof.Machine.execCharH s
  | .charI => Sys2Proof.Machine.execCharI s
  | .charJ => Sys2Proof.Machine.execCharJ s
  | .charK => Sys2Proof.Machine.execCharK s
  | .charL => Sys2Proof.Machine.execCharL s
  | .charM => Sys2Proof.Machine.execCharM s
  | .charN => Sys2Proof.Machine.execCharN s
  | .charO => Sys2Proof.Machine.execCharO s
  | .charP => Sys2Proof.Machine.execCharP s
  | .charQ => Sys2Proof.Machine.execCharQ s
  | .charR => Sys2Proof.Machine.execCharR s
  | .charS => Sys2Proof.Machine.execCharS s
  | .charT => Sys2Proof.Machine.execCharT s
  | .charU => Sys2Proof.Machine.execCharU s
  | .charV => Sys2Proof.Machine.execCharV s
  | .charW => Sys2Proof.Machine.execCharW s
  | .charX => Sys2Proof.Machine.execCharX s
  | .charY => Sys2Proof.Machine.execCharY s
  | .charZ => Sys2Proof.Machine.execCharZ s
  | .char0 => Sys2Proof.Machine.execChar0 s
  | .char1 => Sys2Proof.Machine.execChar1 s
  | .char2 => Sys2Proof.Machine.execChar2 s
  | .char3 => Sys2Proof.Machine.execChar3 s
  | .char4 => Sys2Proof.Machine.execChar4 s
  | .char5 => Sys2Proof.Machine.execChar5 s
  | .char6 => Sys2Proof.Machine.execChar6 s
  | .char7 => Sys2Proof.Machine.execChar7 s
  | .char8 => Sys2Proof.Machine.execChar8 s
  | .char9 => Sys2Proof.Machine.execChar9 s
  | .charSpace => Sys2Proof.Machine.execCharSpace s
  | .charLF => Sys2Proof.Machine.execCharLF s
  | .charPeriod => Sys2Proof.Machine.execCharPeriod s
  | .charComma => Sys2Proof.Machine.execCharComma s
  | .charQuestion => Sys2Proof.Machine.execCharQuestion s

end Sys2Proof.Machine
end

