-- ==== Sys2Proof/Machine/Step.lean ====
section
/-! DEFINITION. The step: one rising clock edge with what the host presents at it. -/

namespace Sys2Proof.Machine

/-- One edge (30_encoding.md R78): `rst` wins over a command (60_exceptions.md R207); no command is an idle edge
(45_host_port_ops.md R195); a command is decoded and performed, atomically (20_memory.md R58); a word that spells
no instruction is answered too (45_host_port_ops.md R194). When the host presents nothing more, every further
edge is idle. -/
def step (s : State) : Host.Outcome State Fault Refusal :=
  match s.inputs with
  | [] => .next s.idle
  | i :: rest =>
    if i.rst then .next (s.withInputs rest).resetCore
    else
      match i.cmd with
      | none => .next (s.withInputs rest).idle
      | some w =>
        match decode s.cfg w with
        | .ok ins => exec ins (s.withInputs rest)
        | .err _ => .next ((s.withInputs rest).undecoded w)

/-- The table word presented at the next edge, before everything the host was going to present (log entry 4). -/
def State.withFetchWord (s : State) (nbits w : Nat) : State :=
  s.withInputs ({ cmd := some (.ofTableWord nbits w) } :: s.inputs)

end Sys2Proof.Machine
end

