-- ==== Sys2Proof/Machine/FrameFormat.lean ====
section
/-! DEFINITION. The reference function `build_frame` of the transmitter (44_frame_format.md). It has no port and
reads and writes no state of the core (R180). -/

namespace Sys2Proof.Machine

/-- Append the bits of one symbol, if they fit `FRAME_CAP` (44_frame_format.md R181). -/
def frameSymbol (cfg : Cfg) (out : List Bit) (s : MorseSymbol) : Result ErrorKind (List Bit) :=
  if out.length + (symbolToBits cfg s).length > cfg.frameCap then .err .fullBuffer
  else .ok (out ++ symbolToBits cfg s)

/-- Append the bits of a list of symbols, in order; the first that does not fit ends it (44_frame_format.md R181). -/
def frameSymbols (cfg : Cfg) (out : List Bit) : List MorseSymbol → Result ErrorKind (List Bit)
  | [] => .ok out
  | s :: q =>
    match frameSymbol cfg out s with
    | .ok out' => frameSymbols cfg out' q
    | .err e => .err e

/-- The loop of `build_frame` over the characters, `out` the bits so far, and the final `LineBreak`
(44_frame_format.md R181). -/
def frameChars (cfg : Cfg) (out : List Bit) : List Byte → Result ErrorKind (List Bit)
  | [] => frameSymbol cfg out .lineBreak
  | c :: text =>
    match stEncode cfg c with
    | .err e => .err e
    | .ok q =>
      match frameSymbols cfg out (q ++ [.charBreak]) with
      | .ok out' => frameChars cfg out' text
      | .err e => .err e

/-- `build_frame(text)` (44_frame_format.md R181). -/
def buildFrame (cfg : Cfg) (text : List Byte) : Result ErrorKind (List Bit) := frameChars cfg [] text

/-- The number of symbols a text is sent as: its characters' symbols, one `CharBreak` each, and the `LineBreak`
(`nsym`, 44_frame_format.md R184); a character without a row counts for none. -/
def symbolCount (cfg : Cfg) : List Byte → Nat
  | [] => 1
  | c :: text =>
    match stEncode cfg c with
    | .ok q => q.length + 1 + symbolCount cfg text
    | .err _ => symbolCount cfg text

end Sys2Proof.Machine
end

