-- ==== Sys2Proof/Machine/Script.lean ====
section
/-! DEFINITION. Host scripts as lists of inputs: the shorthand BITS of 30_encoding.md R91 and the expansions of R92.
They build what the host presents; the core never runs them. -/

namespace Sys2Proof.Machine

/-- An edge at which the host presents a word. -/
def HostInput.present (w : HostWord) : HostInput := { cmd := some w }

/-- `BITS l`: one BIT command per bit (30_encoding.md R91). -/
def scriptBits (l : List Bit) : List HostInput := l.map fun b => .present (encode (.bit b))

/-- `IDLE n`: `n` times `BIT 0` (30_encoding.md R92). -/
def scriptIdle (n : Nat) : List HostInput := scriptBits (List.replicate n .lo)

/-- `FRAME "text"`: `START`, then `BITS build_frame("text")` (30_encoding.md R92); no script when `build_frame`
fails. -/
def scriptFrame (cfg : Cfg) (text : List Byte) : Result ErrorKind (List HostInput) :=
  match buildFrame cfg text with
  | .ok bits => .ok (scriptBits (cfg.sp ++ bits))
  | .err e => .err e

/-- The bits a line-code row expands to (30_encoding.md R92); `none` for a command of the port. -/
def expansion (cfg : Cfg) (i : Instr) : Option (List Bit) :=
  match i.symbol?, i.charCode? with
  | some y, _ => some (symbolToBits cfg y)
  | none, some c => some (charBits cfg c)
  | none, none => if i = .start then some cfg.sp else none

end Sys2Proof.Machine
end

