-- ==== Sys2Proof/Safety.lean ====
section
/-! DEFINITION. What counts as a safe run, and the invariants of 10_state.md R20, R35 and 30_encoding.md R80 that
claims use. -/

namespace Sys2Proof.Machine

/-- A step that neither faults nor is refused (60_exceptions.md R200: no operation leaves the core stuck). -/
def SafeStep (s : State) : Prop := ∃ t, step s = .next t

/-- The side conditions 10_state.md R20 writes beside each payload, and in `Processing` that the message held is the
one `process` makes of the sequence held (43_decoder_state_machine.md R160, R162). -/
def Parser.Inv (cfg : Cfg) : Parser → Prop
  | .waitingForStart win => win.length ≤ cfg.spLen ∧ win ≠ cfg.sp
  | .listening run seq =>
      run.length < cfg.bitrunCap ∧ (∀ b ∈ run, b = .hi) ∧
      seq.length ≤ cfg.symseqCap ∧ .lineBreak ∉ seq
  | .processing seq msg =>
      1 ≤ seq.length ∧ seq.length ≤ cfg.symseqCap ∧
      seq.getLast? = some .lineBreak ∧ .lineBreak ∉ seq.dropLast ∧
      msg.length ≤ cfg.msgCap ∧ process cfg seq = .ok msg

/-- What 30_encoding.md R80 says of the fields of one response, of any operation: at most one of `done`, `err ≠ 0`,
`ignored`; `lock` with none of `sym_valid`, `done`, `err`, `ignored`; `done` implies the symbol `LineBreak`; `sym`
is 0 without `sym_valid`; the codes are those of R75 and of 60_exceptions.md R201. -/
structure Rsp.Legal (r : Rsp) : Prop where
  done_err : r.done = true → r.err = 0#3
  done_ignored : r.done = true → r.ignored = false
  err_ignored : r.ignored = true → r.err = 0#3
  lock_alone : r.lock = true → r.symValid = false ∧ r.done = false ∧ r.err = 0#3 ∧ r.ignored = false
  done_sym : r.done = true → r.symValid = true ∧ r.sym = BitVec.ofNat 3 (symbolCode .lineBreak)
  sym_zero : r.symValid = false → r.sym = 0#3
  sym_code : r.sym.toNat ≤ 4
  err_code : r.err.toNat ≤ 4

/-- The invariant of the machine: a configuration of 00_scope.md R7, the Parser's side conditions, legal
responses, response outputs that are zero when no response is presented (30_encoding.md R78, R80; log entry 19), and
`THR` and `THR_RESET` numbers of `SAMPLE_W` bits (10_state.md R29). -/
structure State.Inv (s : State) : Prop where
  cfg_valid : s.cfg.Valid
  parser_inv : s.parser.Inv s.cfg
  rsp_legal : s.rsp.Legal
  trace_legal : ∀ r ∈ s.trace, r.Legal
  quiet : s.rspValid = false → s.rsp = {}
  thr_lt : s.thr.toNat < 2 ^ s.cfg.sampleW
  thrReset_lt : s.cfg.thrReset.toNat < 2 ^ s.cfg.sampleW

/-- The message of a Parser that has completed one (10_state.md R31: `STATE == Processing` means that a decoded
message is held). -/
def Parser.held : Parser → Option (List Byte)
  | .processing _ m => some m
  | .waitingForStart _ | .listening _ _ => none

end Sys2Proof.Machine
end

