-- ==== Sys2Proof/Certificates/Slice0/Obligations.lean ====
section
/-! DEFINITION. The statements for the provers. Rules are those of spec/; log entries are notes/assumptions/<n>.md. `trace` and
`inputs` are the model's own fields (log entries 6 and 4): `trace` is the list of responses that 70_reset_and_hazards.md
R248 says is observed, and `s.respond r` is `s` with the response `r` presented and put at the end of that list. -/

open Sys2Proof Sys2Proof.Machine

/-! ### Encoding -/

/-- One word of each family, written out from the formats of 30_encoding.md R73 and the rows of R83, R84 and of
40_symbol_table.md R101, decodes at the default configuration to the instruction it stands for. -/
def Obligations.DecodeWords : Prop :=
  decode defaultCfg (.op 0x10000001#32) = .ok (.bit .hi) ∧
  decode defaultCfg (.op 0x20000801#32) = .ok (.sample 0x801#28) ∧
  decode defaultCfg (.op 0x30000000#32) = .ok .new ∧
  decode defaultCfg (.op 0x400003FF#32) = .ok (.setthr 0x3FF#28) ∧
  decode defaultCfg (.op 0x50000001#32) = .ok (.rdmsg 1#8) ∧
  decode defaultCfg (.op 0x80000061#32) = .ok (.enc 0x61#8) ∧
  decode defaultCfg (.op 0x90400008#32) = .ok (.dec [.dot, .dash]) ∧
  decode defaultCfg (.op 0xA0000001#32) = .ok (.s2b .dash) ∧
  decode defaultCfg (.op 0xB0000303#32) = .ok (.b2s [.hi, .hi, .lo]) ∧
  decode defaultCfg (.bitrun [.hi, .hi, .lo]) = .ok .symDash ∧
  decode defaultCfg (.bitrun [.hi, .hi, .hi, .hi, .hi, .hi, .hi, .lo]) = .ok .start ∧
  decode defaultCfg (.morse [.hi, .lo, .hi, .hi, .lo]) = .ok .charA

/-- 30_encoding.md R77: how each operand is taken from the command word, and the words it makes reserved. The operand of format V
is `cmd[11:0]` at the default `SAMPLE_W`; DecodedWellFormed says it for every width. -/
def Obligations.OperandFields : Prop := ∀ (cfg : Cfg) (w : Word),
  (w.extractLsb' 28 4 = 0x1#4 → w.extractLsb' 1 27 = 0#27 →
    decode cfg (.op w) = .ok (.bit (if w.getLsbD 0 then .hi else .lo))) ∧
  (w.extractLsb' 28 4 = 0x2#4 → cfg.sampleW = 12 → w.extractLsb' 12 16 = 0#16 →
    decode cfg (.op w) = .ok (.sample ((w.extractLsb' 0 12).setWidth 28))) ∧
  (w.extractLsb' 28 4 = 0x4#4 → cfg.sampleW = 12 → w.extractLsb' 12 16 = 0#16 →
    decode cfg (.op w) = .ok (.setthr ((w.extractLsb' 0 12).setWidth 28))) ∧
  (w.extractLsb' 28 4 = 0x5#4 → w.extractLsb' 8 20 = 0#20 →
    decode cfg (.op w) = .ok (.rdmsg (w.extractLsb' 0 8))) ∧
  (w.extractLsb' 28 4 = 0x8#4 → w.extractLsb' 8 20 = 0#20 →
    decode cfg (.op w) = .ok (.enc (w.extractLsb' 0 8))) ∧
  (w.extractLsb' 28 4 = 0xA#4 → w.extractLsb' 3 25 = 0#25 →
    (∀ y, symbolCode y = (w.extractLsb' 0 3).toNat → decode cfg (.op w) = .ok (.s2b y)) ∧
    (4 < (w.extractLsb' 0 3).toNat → ∃ e, decode cfg (.op w) = .err e)) ∧
  (w.extractLsb' 28 4 = 0xB#4 → w.extractLsb' 12 16 = 0#16 →
    (8 < (w.extractLsb' 8 4).toNat → ∃ e, decode cfg (.op w) = .err e) ∧
    ((w.extractLsb' 8 4).toNat ≤ 8 → ∃ r, decode cfg (.op w) = .ok (.b2s r) ∧
      r.length = (w.extractLsb' 8 4).toNat ∧
      ∀ k < r.length, r[k]? = some (if w.getLsbD k then .hi else .lo))) ∧
  (w.extractLsb' 28 4 = 0x9#4 → w.extractLsb' 24 4 = 0#4 →
    ((∃ k < (w.extractLsb' 21 3).toNat, 4 < (w.extractLsb' (3 * k) 3).toNat) →
      ∃ e, decode cfg (.op w) = .err e) ∧
    ((∀ k < (w.extractLsb' 21 3).toNat, (w.extractLsb' (3 * k) 3).toNat ≤ 4) →
      ∃ q, decode cfg (.op w) = .ok (.dec q) ∧ q.length = (w.extractLsb' 21 3).toNat ∧
        ∀ k < q.length, q[k]?.map symbolCode = some (w.extractLsb' (3 * k) 3).toNat))

/-- 30_encoding.md R89 and 45_host_port_ops.md R194: which command words are reserved encodings, and that one
presented to the core changes no state and is answered with `ignored = 1` and nothing else. The conditions are those
of the formats as 30_encoding.md R73 writes them, at the 12 bits of the default `SAMPLE_W`; DecodedWellFormed says what
another width changes. -/
def Obligations.ReservedEncodings : Prop := ∀ w : Word,
  (∀ cfg : Cfg, cfg.sampleW = 12 → ((∃ e, decode cfg (.op w) = .err e) ↔
    (w.extractLsb' 28 4 ∈ [0x0#4, 0x6#4, 0x7#4, 0xC#4, 0xD#4, 0xE#4, 0xF#4] ∨
     (w.extractLsb' 28 4 = 0x1#4 ∧ w.extractLsb' 1 27 ≠ 0#27) ∨
     (w.extractLsb' 28 4 ∈ [0x2#4, 0x4#4, 0xB#4] ∧ w.extractLsb' 12 16 ≠ 0#16) ∨
     (w.extractLsb' 28 4 = 0x3#4 ∧ w.extractLsb' 0 28 ≠ 0#28) ∨
     (w.extractLsb' 28 4 ∈ [0x5#4, 0x8#4] ∧ w.extractLsb' 8 20 ≠ 0#20) ∨
     (w.extractLsb' 28 4 = 0x9#4 ∧ w.extractLsb' 24 4 ≠ 0#4) ∨
     (w.extractLsb' 28 4 = 0xA#4 ∧ w.extractLsb' 3 25 ≠ 0#25) ∨
     (w.extractLsb' 28 4 = 0x9#4 ∧
       ∃ k < (w.extractLsb' 21 3).toNat, 4 < (w.extractLsb' (3 * k) 3).toNat) ∨
     (w.extractLsb' 28 4 = 0xA#4 ∧ 4 < (w.extractLsb' 0 3).toNat) ∨
     (w.extractLsb' 28 4 = 0xB#4 ∧ 8 < (w.extractLsb' 8 4).toNat)))) ∧
  (∀ (s : State) e rest, decode s.cfg (.op w) = .err e →
    s.inputs = { cmd := some (.op w) } :: rest →
    step s = .next { s with
      inputs := rest, rspValid := true, rsp := { ignored := true },
      trace := s.trace ++ [{ ignored := true }] })

/-- Decoding the word of a well-formed instruction gives it back, for every instruction of the table with every
operand the encoding admits, at every configuration. For a command word this is 30_encoding.md R71 to R73 and R77, with
the operand of SAMPLE and SETTHR at a width other than the default's as the model reads it (log entry 3). For a
line-code row the word is that of R83, R84 or 40_symbol_table.md R101, which the spec gives at the default `LEN`, `SP`
and `TABLE`; that it names the row at every other configuration too is the model's choice (log entry 22), and which
bits the row then feeds is LineCodeExpands, not this. -/
def Obligations.DecodeEncode : Prop := ∀ (cfg : Cfg) (i : Instr), i.WellFormed cfg → decode cfg (encode i) = .ok i

/-- Whatever word is decoded, at any configuration, the instruction is well-formed (30_encoding.md R71). In particular
the operand of SAMPLE and SETTHR is `cmd[SAMPLE_W-1:0]` at every width the word has room for
(43_decoder_state_machine.md R166, 45_host_port_ops.md R190); the bits between it and the operation code must be zero,
and no other operation's encoding depends on the width. 30_encoding.md R73 writes the format at 12 bits; that its
must-be-zero bits begin at `SAMPLE_W` is the model's reading (log entry 3). -/
def Obligations.DecodedWellFormed : Prop :=
  (∀ cfg w i, decode cfg w = .ok i → i.WellFormed cfg) ∧
  ∀ (cfg : Cfg) (w : Word),
    (cfg.sampleW ≤ 28 → w.extractLsb' 28 4 ∈ [0x2#4, 0x4#4] →
      (w.extractLsb' cfg.sampleW (28 - cfg.sampleW) = 0 →
        ∃ v : Sample, v.toNat = (w.extractLsb' 0 cfg.sampleW).toNat ∧
          decode cfg (.op w) = .ok (if w.extractLsb' 28 4 = 0x2#4 then .sample v else .setthr v)) ∧
      (w.extractLsb' cfg.sampleW (28 - cfg.sampleW) ≠ 0 → ∃ e, decode cfg (.op w) = .err e)) ∧
    (w.extractLsb' 28 4 ∉ [0x2#4, 0x4#4] → ∀ cfg' : Cfg, decode cfg (.op w) = decode cfg' (.op w))

/-- The words of the line-code rows are what the Timing Codec and the Symbol Table give at the default configuration
(30_encoding.md R83, R84; 40_symbol_table.md R101, column "bits"). -/
def Obligations.LineCodeWords : Prop :=
  (∀ i y, i.symbol? = some y → encode i = .bitrun (symbolToBits defaultCfg y)) ∧
  encode .start = .bitrun defaultCfg.sp ∧
  (∀ i c, i.charCode? = some c → ∃ q, (c, q) ∈ defaultCfg.table ∧
    encode i = .morse (q.flatMap (symbolToBits defaultCfg)))

/-! ### The step -/

/-- At an edge at which a word that decodes to an instruction is presented, and `rst` is 0, the step is `exec` of that
instruction on the state whose next input is taken. -/
def Obligations.StepRunsDecoded : Prop := ∀ (s : State) i rest w ins,
  s.inputs = i :: rest → i.rst = false → i.cmd = some w → decode s.cfg w = .ok ins →
  step s = exec ins { s with inputs := rest }

/-- An edge at which no command is presented changes no state and has no response (45_host_port_ops.md R195); the
response outputs are zero again, which is the model's choice (log entry 19). `inputs` is the model's own (log
entry 4). -/
def Obligations.IdleEdge : Prop := ∀ s : State,
  (∀ i rest, s.inputs = i :: rest → i.rst = false → i.cmd = none →
    step s = .next { s with inputs := rest, rspValid := false, rsp := {} }) ∧
  (s.inputs = [] → step s = .next { s with rspValid := false, rsp := {} })

/-- Every edge takes the next thing the host presents and no other, whatever it is (log entry 4: `inputs` is the
model's own). -/
def Obligations.InputsConsumed : Prop := ∀ s t : State, step s = .next t → t.inputs = s.inputs.tail

/-- 10_state.md R41 and 60_exceptions.md R207: at an edge at which `rst` is 1 every register takes its reset value and a
command presented at that edge is not accepted: it has no response. -/
def Obligations.ResetEdge : Prop := ∀ (s : State) rest (c : Option HostWord),
  s.inputs = { rst := true, cmd := c } :: rest →
  ∃ t, step s = .next t ∧
    t.parser = .fresh ∧ t.parser.flat = ⟨0#2, 0, 0, 0, 0, 0, 0⟩ ∧ (∀ i, msgRead t.parser i = 0x00#8) ∧
    t.thr = s.cfg.thrReset ∧ t.rspValid = false ∧ t.rsp = {} ∧ t.trace = s.trace

/-- The state the model starts in is the one 10_state.md R41 leaves, at the default configuration of 00_scope.md R6. -/
def Obligations.ResetState : Prop :=
  State.reset.cfg = defaultCfg ∧
  State.reset.parser = .fresh ∧
  State.reset.parser.flat = ⟨0#2, 0, 0, 0, 0, 0, 0⟩ ∧
  State.reset.thr = 0x800#28 ∧
  State.reset.rspValid = false ∧ State.reset.rsp = {} ∧
  ∀ i, msgRead State.reset.parser i = 0x00#8

/-- No run of any length from any state stops (60_exceptions.md R200; 93_implementation_defined.md, closing sentence of
part 1). -/
def Obligations.RunsNeverStop : Prop := ∀ n (s : State), ∃ t, Sys2Proof.core.run n s = .next t

/-- 20_memory.md R53: no operation and no reset changes the ROMs (or the other parameters), and the inverse table is the
inverse of the forward one, one representative per case-folded character. -/
def Obligations.RomsConstant : Prop :=
  (∀ s t : State, step s = .next t → t.cfg = s.cfg) ∧
  ∀ cfg : Cfg, cfg.Valid → ∀ q ch,
    (stDecode cfg q = .ok (some ch) ↔ stEncode cfg ch = .ok q ∧ fold ch = ch)

/-! ### BIT -/

/-- 43_decoder_state_machine.md R152 and R153: BIT in `WaitingForStart` pushes the bit through the Frame Synchronizer
once; without lock the only change is the window; on lock the machine listens with empty buffers. No error arises. -/
def Obligations.WaitingBit : Prop := ∀ (s : State) win b, s.parser = .waitingForStart win →
  ((fsPush s.cfg win b).2 = false →
    exec (.bit b) s = .next ((s.withParser (.waitingForStart (fsPush s.cfg win b).1)).respond {})) ∧
  ((fsPush s.cfg win b).2 = true →
    exec (.bit b) s = .next ((s.withParser (.listening [] [])).respond { lock := true }))

/-- 43_decoder_state_machine.md R158: the `Hi` that fills the BitRun is a `FullBuffer` error and resets; an earlier `Hi`
only extends the run; a `Lo` that fills it is given to `bits_to_symbol` first: it resolves if some symbol has that
length and is `UnknownBitSequence` otherwise. -/
def Obligations.RunOverflow : Prop := ∀ (s : State) run seq, s.cfg.Valid →
  s.parser = .listening run seq → (∀ b ∈ run, b = .hi) →
  (run.length + 1 < s.cfg.bitrunCap →
    exec (.bit .hi) s = .next ((s.withParser (.listening (run ++ [.hi]) seq)).respond {})) ∧
  (run.length + 1 = s.cfg.bitrunCap →
    exec (.bit .hi) s = .next ((s.withParser .fresh).respond { err := 4#3 }) ∧
    ((∀ y, s.cfg.len y ≠ s.cfg.bitrunCap) →
      exec (.bit .lo) s = .next ((s.withParser .fresh).respond { err := 2#3 })) ∧
    (∀ y, s.cfg.len y = s.cfg.bitrunCap → ∃ t, exec (.bit .lo) s = .next t ∧
      t.rsp.symValid = true ∧ t.rsp.sym = BitVec.ofNat 3 (symbolCode y)))

/-- 43_decoder_state_machine.md R155: a resolved symbol other than `LineBreak` clears the BitRun, is appended to the
SymbolSequence and is reported; `CharBreak` like any other. -/
def Obligations.RunResolves : Prop := ∀ (s : State) run seq y, s.cfg.Valid →
  s.parser = .listening run seq → (∀ b ∈ run, b = .hi) →
  s.cfg.len y = run.length + 1 → seq.length < s.cfg.symseqCap → y ≠ .lineBreak →
  exec (.bit .lo) s = .next ((s.withParser (.listening [] (seq ++ [y]))).respond
    { symValid := true, sym := BitVec.ofNat 3 (symbolCode y) })

/-- 43_decoder_state_machine.md R156: a run that is no symbol discards the whole message; at the default `LEN` this is
a `Lo` after 5, 6 or 7 `Hi`. -/
def Obligations.RunUnknown : Prop := ∀ (s : State) run seq,
  s.parser = .listening run seq → (∀ b ∈ run, b = .hi) →
  ((∀ y, s.cfg.len y ≠ run.length + 1) →
    exec (.bit .lo) s = .next ((s.withParser .fresh).respond { err := 2#3 })) ∧
  (s.cfg = defaultCfg → run.length < defaultCfg.bitrunCap →
    ((∃ t, exec (.bit .lo) s = .next t ∧ t.rsp.err = 2#3) ↔ run.length ∈ [5, 6, 7]))

/-- 43_decoder_state_machine.md R157: a symbol resolved while the SymbolSequence is full, a `LineBreak` too, is a
`FullBuffer` error that carries the symbol and resets the machine. -/
def Obligations.SequenceOverflow : Prop := ∀ (s : State) run seq y, s.cfg.Valid →
  s.parser = .listening run seq → (∀ b ∈ run, b = .hi) →
  s.cfg.len y = run.length + 1 → seq.length = s.cfg.symseqCap →
  exec (.bit .lo) s = .next ((s.withParser .fresh).respond
    { symValid := true, sym := BitVec.ofNat 3 (symbolCode y), err := 4#3 })

/-- 43_decoder_state_machine.md R162: on success the machine rests in `Processing` with the completed sequence and the
message, `done` is reported, RDMSG reads the message, and only NEW (or reset) ends it. -/
def Obligations.MessageComplete : Prop := ∀ (s : State) run seq m, s.cfg.Valid →
  s.parser = .listening run seq → (∀ b ∈ run, b = .hi) →
  s.cfg.len .lineBreak = run.length + 1 → seq.length < s.cfg.symseqCap →
  process s.cfg (seq ++ [.lineBreak]) = .ok m →
  ∃ t, exec (.bit .lo) s = .next t ∧
    t = (s.withParser (.processing (seq ++ [.lineBreak]) m)).respond
      { symValid := true, sym := 4#3, done := true } ∧
    t.stateOut = 2#2 ∧ t.parser.seq = seq ++ [.lineBreak] ∧ t.parser.win = [] ∧ t.parser.run = [] ∧
    (∀ i : Byte, i.toNat < m.length → msgRead t.parser i = m.getD i.toNat 0x00#8) ∧
    ∀ i u, i ≠ .new → exec i t = .next u → u.parser = t.parser ∧ u.stateOut = 2#2

/-- A failure of Processing discards everything and leaves the machine fresh, with the symbol and the error in the
response, and no part of the message readable (43_decoder_state_machine.md R163). -/
def Obligations.MessageFails : Prop := ∀ (s : State) run seq e, s.cfg.Valid →
  s.parser = .listening run seq → (∀ b ∈ run, b = .hi) →
  s.cfg.len .lineBreak = run.length + 1 → seq.length < s.cfg.symseqCap →
  process s.cfg (seq ++ [.lineBreak]) = .err e →
  exec (.bit .lo) s = .next ((s.withParser .fresh).respond
    { symValid := true, sym := 4#3, err := errorCode e }) ∧
  (e = .unknownSequence ∨ e = .fullBuffer) ∧
  ∀ i, msgRead Parser.fresh i = 0x00#8

/-- A sequence of fewer than `2 * MSG_CAP + 3` symbols ending in its one `LineBreak` never overflows the message; at
the default capacities every sequence the buffer holds is that short (43_decoder_state_machine.md R163). -/
def Obligations.ProcessFits : Prop :=
  (∀ (cfg : Cfg) q, cfg.Valid → .lineBreak ∉ q → q.length + 1 < 2 * cfg.msgCap + 3 →
    process cfg (q ++ [.lineBreak]) ≠ .err .fullBuffer) ∧
  defaultCfg.symseqCap < 2 * defaultCfg.msgCap + 3

/-- The characters between `CharBreak`s, each a row of the table, come out in order
(43_decoder_state_machine.md R160). -/
def Obligations.ProcessDecodesRows : Prop := ∀ (cfg : Cfg) (rows : List (Byte × List MorseSymbol)),
  cfg.Valid → (∀ row ∈ rows, row ∈ cfg.table ∧ row.1 ≠ 0x0A#8) → rows.length ≤ cfg.msgCap →
  process cfg (rows.flatMap (fun row => row.2 ++ [.charBreak]) ++ [.lineBreak]) = .ok (rows.map Prod.fst)

/-- Sub-slices are taken left to right and the first failure decides: a slice with no table row, or a decoded
character that does not fit, whatever follows (43_decoder_state_machine.md R160, 60_exceptions.md R206). -/
def Obligations.ProcessFirstError : Prop := ∀ (cfg : Cfg) q pre sub post m,
  splitBreaks q = pre ++ sub :: post → processSubs cfg pre [] = .ok m →
  sub ≠ [] → sub ≠ [.lineBreak] →
  ((∀ row ∈ cfg.table, row.2 ≠ sub) → process cfg q = .err .unknownSequence) ∧
  ((∃ row ∈ cfg.table, row.2 = sub) → m.length = cfg.msgCap → process cfg q = .err .fullBuffer)

/-- 43_decoder_state_machine.md R161: a final sub-slice that is exactly the `LineBreak` gives no character (the
`LineBreak` alone is the empty message); one that holds anything besides it is `UnknownSequence`; a returned message
never contains LF and may contain spaces. -/
def Obligations.MessageTerminator : Prop := ∀ cfg : Cfg, cfg.Valid →
  (∀ pre m, process cfg pre = .ok m → (pre = [] ∨ pre.getLast? = some .charBreak) →
    process cfg (pre ++ [.lineBreak]) = .ok m ∧
    ∀ sub, sub ≠ [] → .charBreak ∉ sub → process cfg (pre ++ sub ++ [.lineBreak]) = .err .unknownSequence) ∧
  process cfg [.lineBreak] = .ok [] ∧
  process cfg [.wordBreak, .charBreak, .lineBreak] = .ok [0x20#8] ∧
  (∀ q m, process cfg q = .ok m → 0x0A#8 ∉ m)

/-- 43_decoder_state_machine.md R164: BIT and SAMPLE in `Processing` change nothing and respond `ignored = 1`. -/
def Obligations.IgnoredWhileHeld : Prop := ∀ (s : State) seq msg, s.parser = .processing seq msg →
  (∀ b, exec (.bit b) s = .next (s.respond { ignored := true })) ∧
  (∀ v, exec (.sample v) s = .next (s.respond
    { ignored := true, data := BitVec.ofNat 24 (if s.thr.toNat < v.toNat then 1 else 0) }))

/-- 70_reset_and_hazards.md R241: no instruction but NEW, the line-code rows included, touches a held message; NEW and
reset clear it. -/
def Obligations.HeldMessageKept : Prop := ∀ (s : State) seq msg, s.parser = .processing seq msg →
  (∀ i t, i ≠ .new → exec i s = .next t → t.parser = .processing seq msg) ∧
  (∀ t, exec .new s = .next t → t.parser.msg = []) ∧
  (∀ i rest t, s.inputs = i :: rest → i.rst = true → step s = .next t → t.parser.msg = [])

/-! ### The other operations -/

/-- 43_decoder_state_machine.md R166: SAMPLE is BIT of the thresholded sample, with the bit in `data[0]` in every
state. A threshold at the top of its range makes every sample `Lo`, and one at 0 every sample but 0 `Hi`. -/
def Obligations.SampleThreshold : Prop := ∀ (s : State) v b,
  b = (if s.thr.toNat < v.toNat then Bit.hi else Bit.lo) →
  (∃ p r, exec (.bit b) s = .next ((s.withParser p).respond r) ∧
    exec (.sample v) s = .next ((s.withParser p).respond { r with data := BitVec.ofNat 24 (bitCode b) })) ∧
  (s.thr.toNat = 2 ^ s.cfg.sampleW - 1 → (Instr.sample v).WellFormed s.cfg → b = .lo) ∧
  (s.thr.toNat = 0 → v.toNat ≠ 0 → b = .hi)

/-- 43_decoder_state_machine.md R168: NEW discards the Parser in every state, leaves `THR`, and answers all zero. -/
def Obligations.NewDiscards : Prop := ∀ s : State, ∃ t, exec .new s = .next t ∧
  t = { s with parser := .waitingForStart [], rspValid := true, rsp := {}, trace := s.trace ++ [{}] } ∧
  t.parser.flat = ⟨0#2, 0, 0, 0, 0, 0, 0⟩ ∧ t.thr = s.thr ∧ ∀ i, msgRead t.parser i = 0x00#8

/-- 45_host_port_ops.md R190: SETTHR writes `THR` only, answers all zero; BIT is not affected by it, and every SAMPLE
from then on is the BIT of the sample compared with the new threshold. -/
def Obligations.SetthrWrites : Prop := ∀ (s : State) v, ∃ t, exec (.setthr v) s = .next t ∧
  t = { s with thr := v, rspValid := true, rsp := {}, trace := s.trace ++ [{}] } ∧
  (∀ b, ∃ p r, exec (.bit b) s = .next ((s.withParser p).respond r) ∧
    exec (.bit b) t = .next ((t.withParser p).respond r)) ∧
  ∀ u b, b = (if v.toNat < u.toNat then Bit.hi else Bit.lo) →
    ∃ p r, exec (.bit b) t = .next ((t.withParser p).respond r) ∧
      exec (.sample u) t = .next ((t.withParser p).respond { r with data := BitVec.ofNat 24 (bitCode b) })

/-- 45_host_port_ops.md R192: RDMSG returns the character in `Processing` below `MSG_LEN` and 0 otherwise, and writes
nothing; the length stands on `msg_len` whenever its 8 bits hold it (a message of 256 characters is log entry 18), and
a message made with the default table holds no 0x00. -/
def Obligations.RdmsgReads : Prop := ∀ (s : State) (i : Byte),
  (∀ seq msg ch, s.parser = .processing seq msg → msg[i.toNat]? = some ch →
    exec (.rdmsg i) s = .next (s.respond { data := 0#16 ++ ch })) ∧
  ((∀ seq msg, s.parser = .processing seq msg → msg.length ≤ i.toNat) →
    exec (.rdmsg i) s = .next (s.respond {})) ∧
  (∀ seq msg, s.parser = .processing seq msg → msg.length < 256 → s.msgLenOut.toNat = msg.length) ∧
  ((∀ seq msg, s.parser ≠ .processing seq msg) → s.msgLenOut = 0#8) ∧
  (∀ seq msg, s.parser = .processing seq msg → s.cfg = defaultCfg → process s.cfg seq = .ok msg → 0x00#8 ∉ msg)

/-- 40_symbol_table.md R105: ENC answers the row of the folded character, length in `data[20:18]` and symbol `k` at
`data[3k+2:3k]`, or `UnsupportedChar`; it writes no state. A row has at most 6 symbols (20_memory.md R50). -/
def Obligations.EncLooksUp : Prop := ∀ (s : State) c, s.cfg.Valid →
  (∀ q, (fold c, q) ∈ s.cfg.table → q.length ≤ 6 →
    ∃ d : Data, exec (.enc c) s = .next (s.respond { data := d }) ∧
      (d.extractLsb' 18 3).toNat = q.length ∧ d.extractLsb' 21 3 = 0#3 ∧
      (∀ k < q.length, q[k]?.map symbolCode = some (d.extractLsb' (3 * k) 3).toNat) ∧
      ∀ k < 6, q.length ≤ k → d.extractLsb' (3 * k) 3 = 0#3) ∧
  ((∀ q, (fold c, q) ∉ s.cfg.table) → exec (.enc c) s = .next (s.respond { err := 1#3 }))

/-- 40_symbol_table.md R104 and R106: DEC answers the character of the row that is the whole slice, nothing for the
empty slice, and `UnknownSequence` otherwise; it writes no state. At the default table every slice longer than 6 is
unknown. -/
def Obligations.DecLooksUp : Prop := ∀ (s : State) q, s.cfg.Valid →
  (∀ ch, (ch, q) ∈ s.cfg.table → stDecode s.cfg q = .ok (some ch) ∧
    exec (.dec q) s = .next (s.respond { data := 0#15 ++ (1#1 ++ ch) })) ∧
  (q = [] → stDecode s.cfg q = .ok none ∧ exec (.dec q) s = .next (s.respond {})) ∧
  (q ≠ [] → (∀ ch, (ch, q) ∉ s.cfg.table) → stDecode s.cfg q = .err .unknownSequence ∧
    exec (.dec q) s = .next (s.respond { err := 3#3 })) ∧
  (s.cfg = defaultCfg → 6 < q.length → exec (.dec q) s = .next (s.respond { err := 3#3 }))

/-- 41_timing_codec.md R124: S2B answers the run of the symbol, length in `data[11:8]` and `2^(LEN-1) - 1` in
`data[7:0]`, and writes no state. -/
def Obligations.S2bPacks : Prop := ∀ (s : State) y, s.cfg.Valid →
  ∃ d : Data, exec (.s2b y) s = .next (s.respond { data := d }) ∧
    (d.extractLsb' 8 4).toNat = s.cfg.len y ∧
    (d.extractLsb' 0 8).toNat = 2 ^ (s.cfg.len y - 1) - 1 ∧
    d.extractLsb' 12 12 = 0#12

/-- 41_timing_codec.md R125: B2S resolves exactly the runs `symbol_to_bits` gives, answers `UnknownBitSequence` for
every other run and never `FullBuffer`, and writes no state. -/
def Obligations.B2sResolves : Prop := ∀ (s : State) r, s.cfg.Valid →
  (∀ y, r = List.replicate (s.cfg.len y - 1) .hi ++ [.lo] →
    exec (.b2s r) s = .next (s.respond { symValid := true, sym := BitVec.ofNat 3 (symbolCode y) })) ∧
  ((∀ y, r ≠ List.replicate (s.cfg.len y - 1) .hi ++ [.lo]) →
    exec (.b2s r) s = .next (s.respond { err := 2#3 }))

/-! ### The tables -/

/-- 40_symbol_table.md R107: decoding the encoding of a supported character gives the folded character. -/
def Obligations.SymbolTableRoundTrip : Prop := ∀ (cfg : Cfg) c q, cfg.Valid →
  stEncode cfg c = .ok q → stDecode cfg q = .ok (some (fold c))

/-- 40_symbol_table.md R102: upper and lower case encode alike, no other code is folded, and decode never yields an
uppercase letter. -/
def Obligations.CaseFolding : Prop := ∀ cfg : Cfg,
  (∀ c : Byte, 0x41 ≤ c.toNat → c.toNat ≤ 0x5A →
    (fold c).toNat = c.toNat + 0x20 ∧ stEncode cfg c = stEncode cfg (c + 0x20#8)) ∧
  (∀ c : Byte, ¬(0x41 ≤ c.toNat ∧ c.toNat ≤ 0x5A) → fold c = c) ∧
  (cfg.Valid → ∀ q ch, stDecode cfg q = .ok (some ch) → ¬(0x41 ≤ ch.toNat ∧ ch.toNat ≤ 0x5A))

/-- 41_timing_codec.md R126: the Timing Codec is a round trip in both directions. -/
def Obligations.TimingCodecRoundTrip : Prop := ∀ cfg : Cfg, cfg.Valid →
  (∀ y, bitsToSymbol cfg (symbolToBits cfg y) = .ok y) ∧
  (∀ r y, bitsToSymbol cfg r = .ok y → symbolToBits cfg y = r)

/-- The default table has the 41 rows of 40_symbol_table.md R101: 67 codes are supported, no `CharBreak` appears, the
longest sequence has 6 symbols, and no code of 0x80 to 0xFF is supported (30_encoding.md R76). -/
def Obligations.DefaultTable : Prop :=
  defaultCfg.table.length = 41 ∧
  ((List.range 256).filter fun c => stEncode defaultCfg (BitVec.ofNat 8 c) ≠ .err .unsupportedChar).length = 67 ∧
  (∀ row ∈ defaultCfg.table, .charBreak ∉ row.2 ∧ row.2.length ≤ 6) ∧
  (∀ c : Byte, 0x80 ≤ c.toNat → stEncode defaultCfg c = .err .unsupportedChar)

/-! ### The Frame Synchronizer -/

/-- 42_frame_synchronizer.md R138: `fs_push` in the flat registers is `fs_push`; the default `SP_WORD` is 0x7F. -/
def Obligations.PushFlat : Prop :=
  (∀ (cfg : Cfg) win b, 1 ≤ cfg.spLen → win.length ≤ cfg.spLen →
    fsPushFlat cfg (packBits win) win.length b =
      ((packBits (fsPush cfg win b).1, (fsPush cfg win b).1.length), (fsPush cfg win b).2)) ∧
  packBits defaultCfg.sp = 0x7F

/-- 42_frame_synchronizer.md R140: over any stream from an empty window, `fs_push` reports lock for the first time at
the end of the first occurrence of the Start Pattern, and at no earlier push; used alone on the rest of the stream
it starts again from an empty window. -/
def Obligations.FirstOccurrence : Prop := ∀ (cfg : Cfg) (x : List Bit) k, 1 ≤ cfg.spLen → k < x.length →
  (∀ j < k, ¬ cfg.sp <:+ x.take (j + 1)) →
  ((fsStream cfg [] x).2[k]? = some true ↔ cfg.sp <:+ x.take (k + 1)) ∧
  ((fsStream cfg [] x).2[k]? = some false ↔ ¬ cfg.sp <:+ x.take (k + 1)) ∧
  (cfg.sp <:+ x.take (k + 1) →
    (fsStream cfg [] x).2.drop (k + 1) = (fsStream cfg [] (x.drop (k + 1))).2)

/-- Nothing but a lock leads from `WaitingForStart` to another state: of the nine operations only BIT and SAMPLE can,
they report the lock, and they lead to `ListeningForMessage` with empty buffers (43_decoder_state_machine.md R151). -/
def Obligations.OnlyLockStartsListening : Prop := ∀ (s t : State) win i,
  s.parser = .waitingForStart win → i.symbol? = none → i.charCode? = none → i ≠ .start →
  exec i s = .next t → t.stateOut ≠ 0#2 →
  t.parser = .listening [] [] ∧ t.rsp.lock = true ∧ ((∃ b, i = .bit b) ∨ ∃ v, i = .sample v)

/-! ### Errors and responses -/

/-- 60_exceptions.md R210: when BIT or SAMPLE, with the bit `b`, reports an error, the Parser is fresh in every register,
`THR` is unchanged, nothing is saved, and the response keeps the symbol the operation had resolved, if it had. -/
def Obligations.ErrorEntry : Prop := ∀ (s t : State) i b, (i = .bit b ∨ ∃ v, i = .sample v ∧ b = sampleBit s.thr v) →
  exec i s = .next t → t.rsp.err ≠ 0#3 →
  t.parser = .fresh ∧ t.parser.flat = ⟨0#2, 0, 0, 0, 0, 0, 0⟩ ∧ t.thr = s.thr ∧ t.cfg = s.cfg ∧
  t.trace = s.trace ++ [t.rsp] ∧ (∀ i, msgRead t.parser i = 0x00#8) ∧
  (∀ y, b = .lo → bitsToSymbol s.cfg (s.parser.run ++ [.lo]) = .ok y →
    t.rsp.symValid = true ∧ t.rsp.sym = BitVec.ofNat 3 (symbolCode y)) ∧
  ((b = .hi ∨ ∀ y, bitsToSymbol s.cfg (s.parser.run ++ [.lo]) ≠ .ok y) → t.rsp.symValid = false)

/-- 60_exceptions.md R202: `UnsupportedChar` is reported by ENC only, and changes no state there. -/
def Obligations.UnsupportedCharOnlyEnc : Prop := ∀ (s t : State) i, exec i s = .next t →
  ∀ r ∈ t.trace.drop s.trace.length, r.err = 1#3 →
    (∃ c, i = .enc c) ∧ t = { s with rspValid := true, rsp := r, trace := s.trace ++ [r] }

/-- What one response may hold, whatever the instruction and the state, and that an `UnknownSequence`, or a
`FullBuffer` of the sequence or message buffer, raised by a bit comes with the symbol (30_encoding.md R80, derived
there from 43_decoder_state_machine.md R150 to R160; the `UnknownSequence` of DEC, 40_symbol_table.md R106, comes
without one). -/
def Obligations.ResponseLegal : Prop := ∀ (s t : State) i, exec i s = .next t →
  (∀ r ∈ t.trace.drop s.trace.length, r.Legal) ∧
  (∀ b, i = .bit b → t.rsp.err = 3#3 ∨ (t.rsp.err = 4#3 ∧ b = .lo) → t.rsp.symValid = true) ∧
  (∀ v, i = .sample v → t.rsp.err = 3#3 ∨ (t.rsp.err = 4#3 ∧ sampleBit s.thr v = .lo) → t.rsp.symValid = true)

/-- Each of the nine operations produces one response, presented with `rsp_valid = 1` (30_encoding.md R70, R78). -/
def Obligations.OneResponse : Prop := ∀ (s t : State) i,
  i.symbol? = none → i.charCode? = none → i ≠ .start → exec i s = .next t →
  t.rspValid = true ∧ t.trace = s.trace ++ [t.rsp]

/-- 20_memory.md R59: RDMSG, ENC, DEC, S2B and B2S change no state, and the status outputs stay; repeated in any state
with the same Parser and the same ROMs they give the same response, and those five, SETTHR, a reserved word and an idle
edge keep both. -/
def Obligations.ReadsKeepState : Prop := ∀ s : State,
  (∀ i, ((∃ k, i = .rdmsg k) ∨ (∃ c, i = .enc c) ∨ (∃ q, i = .dec q) ∨ (∃ y, i = .s2b y) ∨ ∃ r, i = .b2s r) →
    ∃ r t, exec i s = .next t ∧
      t = { s with rspValid := true, rsp := r, trace := s.trace ++ [r] } ∧
      t.stateOut = s.stateOut ∧ t.msgLenOut = s.msgLenOut ∧
      ∀ u : State, u.parser = s.parser → u.cfg = s.cfg → exec i u = .next (u.respond r)) ∧
  (∀ i t, (∀ b, i ≠ .bit b) → (∀ v, i ≠ .sample v) → i ≠ .new → i ≠ .start → i.symbol? = none →
    i.charCode? = none → exec i s = .next t → t.parser = s.parser ∧ t.cfg = s.cfg) ∧
  (∀ w, (s.undecoded (.op w)).parser = s.parser ∧ (s.undecoded (.op w)).cfg = s.cfg) ∧
  s.idle.parser = s.parser ∧ s.idle.cfg = s.cfg

/-- What BIT, SAMPLE, NEW and the line-code rows leave unchanged: `THR`, the configuration, what the host will present,
and the responses already given (43_decoder_state_machine.md R150, R166, R168; 30_encoding.md R92). -/
def Obligations.StreamFrame : Prop := ∀ (s t : State) i,
  ((∃ b, i = .bit b) ∨ (∃ v, i = .sample v) ∨ i = .new ∨ i = .start ∨ i.symbol?.isSome ∨ i.charCode?.isSome) →
  exec i s = .next t →
  t.thr = s.thr ∧ t.cfg = s.cfg ∧ t.inputs = s.inputs ∧ s.trace <+: t.trace

/-- The operations that keep the Parser, a reserved word or an idle edge, placed before a BIT, do not change what the
BIT does (70_reset_and_hazards.md R246). -/
def Obligations.LookupsDoNotDisturb : Prop := ∀ (s t : State) b,
  ((∃ k, exec (.rdmsg k) s = .next t) ∨ (∃ c, exec (.enc c) s = .next t) ∨ (∃ q, exec (.dec q) s = .next t) ∨
   (∃ y, exec (.s2b y) s = .next t) ∨ (∃ r, exec (.b2s r) s = .next t) ∨ (∃ v, exec (.setthr v) s = .next t) ∨
   (∃ w, t = s.undecoded (.op w)) ∨ t = s.idle) →
  ∃ p r, exec (.bit b) s = .next ((s.withParser p).respond r) ∧
    exec (.bit b) t = .next ((t.withParser p).respond r)

/-! ### The line-code rows -/

/-- Every line-code row runs, in every state, as the BIT operations of its expansion: SYM_Dot, SYM_Dash,
SYM_CharBreak, SYM_WordBreak, SYM_LineBreak, START, and the 41 CHAR rows (30_encoding.md R92). That one step runs the
whole expansion, the CharBreak of a CHAR row, and what a CHAR without a row does are the model's readings (log entries
7, 8 and 12). -/
def Obligations.LineCodeExpands : Prop := ∀ s : State,
  (∀ i y, i.symbol? = some y →
    exec i s = .next ((List.replicate (s.cfg.len y - 1) Bit.hi ++ [Bit.lo]).foldl State.feedBit s.idle)) ∧
  exec .start s = .next (s.cfg.sp.foldl State.feedBit s.idle) ∧
  (∀ i c q, i.charCode? = some c → stEncode s.cfg c = .ok q →
    exec i s = .next
      (((q ++ [MorseSymbol.charBreak]).flatMap fun y => List.replicate (s.cfg.len y - 1) Bit.hi ++ [Bit.lo]).foldl
        State.feedBit s.idle)) ∧
  (∀ i c e, i.charCode? = some c → stEncode s.cfg c = .err e → exec i s = .next s.idle)

/-- Running a line-code row in one step is running the BIT commands of its expansion, one edge each (30_encoding.md
R91, R92): what justifies the model's choice to run a row in one step (log entry 7). -/
def Obligations.ExpansionRefines : Prop := ∀ (s : State) i bits,
  expansion s.cfg i = some bits → bits ≠ [] →
  Sys2Proof.core.run bits.length (s.withInputs (scriptBits bits ++ s.inputs)) = exec i s

/-- A SYM row at a symbol boundary of a listening machine: the symbol is appended and reported last; a full sequence is
`FullBuffer`; the `LineBreak` completes the message or fails with it (30_encoding.md R92,
43_decoder_state_machine.md R155, R157, R159; log entry 7). -/
def Obligations.SymRows : Prop := ∀ (s : State) i y seq, i.symbol? = some y → s.cfg.Valid →
  s.parser = .listening [] seq →
  ∃ t, exec i s = .next t ∧ t.trace = s.trace ++ List.replicate (s.cfg.len y - 1) ({} : Rsp) ++ [t.rsp] ∧
    t.thr = s.thr ∧
    (seq.length = s.cfg.symseqCap → t.parser = .fresh ∧
      t.rsp = { symValid := true, sym := BitVec.ofNat 3 (symbolCode y), err := 4#3 }) ∧
    (seq.length < s.cfg.symseqCap → y ≠ .lineBreak → t.parser = .listening [] (seq ++ [y]) ∧
      t.rsp = { symValid := true, sym := BitVec.ofNat 3 (symbolCode y) }) ∧
    (seq.length < s.cfg.symseqCap → y = .lineBreak →
      (∀ m, process s.cfg (seq ++ [.lineBreak]) = .ok m → t.parser = .processing (seq ++ [.lineBreak]) m ∧
        t.rsp = { symValid := true, sym := 4#3, done := true }) ∧
      (∀ e, process s.cfg (seq ++ [.lineBreak]) = .err e → t.parser = .fresh ∧
        t.rsp = { symValid := true, sym := 4#3, err := errorCode e }))

/-- START presented to a machine with an empty window locks at its last bit and at no other
(42_frame_synchronizer.md R140, 43_decoder_state_machine.md R153; log entry 7). -/
def Obligations.StartRow : Prop := ∀ s : State, s.cfg.Valid → s.parser = .fresh →
  ∃ t, exec .start s = .next t ∧ t.parser = .listening [] [] ∧ t.rsp = { lock := true } ∧
    t.trace = s.trace ++ List.replicate (s.cfg.spLen - 1) ({} : Rsp) ++ [{ lock := true }] ∧ t.thr = s.thr

/-- A CHAR row at a symbol boundary of a listening machine appends the character's symbols and a `CharBreak`; CHAR LF
ends the message at its `LineBreak`, and what follows is ignored (30_encoding.md R92, 44_frame_format.md R183; log
entries 7 and 8). -/
def Obligations.CharRows : Prop := ∀ (s : State) i c q seq,
  i.charCode? = some c → s.cfg.Valid → (c, q) ∈ s.cfg.table → s.parser = .listening [] seq →
  (c ≠ 0x0A#8 → seq.length + q.length + 1 ≤ s.cfg.symseqCap →
    ∃ t, exec i s = .next t ∧ t.parser = .listening [] (seq ++ q ++ [.charBreak]) ∧
      t.rsp = { symValid := true, sym := 2#3 } ∧ t.thr = s.thr) ∧
  (c = 0x0A#8 → seq.length < s.cfg.symseqCap → ∀ m, process s.cfg (seq ++ [.lineBreak]) = .ok m →
    ∃ t, exec i s = .next t ∧ t.parser = .processing (seq ++ [.lineBreak]) m ∧
      t.rsp = { ignored := true } ∧ t.thr = s.thr)

/-! ### Streams, frames, registers -/

/-- 43_decoder_state_machine.md R172: a dead channel. Listening and stuck at `Lo`, the machine takes one `CharBreak` per
bit and then fails with `FullBuffer`; stuck at `Hi` it fails when the run fills; waiting, it never locks on a stuck
channel when the Start Pattern holds the other level. `CharBreak` has length 1, as at the default. -/
def Obligations.DeadChannel : Prop := ∀ s : State, s.cfg.Valid → s.cfg.len .charBreak = 1 →
  (s.parser = .listening [] [] →
    (∀ n ≤ s.cfg.symseqCap, ∃ t,
      Sys2Proof.core.run n (s.withInputs (scriptBits (List.replicate n .lo))) = .next t ∧
      t.parser = .listening [] (List.replicate n .charBreak)) ∧
    (∃ t, Sys2Proof.core.run (s.cfg.symseqCap + 1)
        (s.withInputs (scriptBits (List.replicate (s.cfg.symseqCap + 1) .lo))) = .next t ∧
      t.parser = .fresh ∧ t.rsp = { symValid := true, sym := 2#3, err := 4#3 }) ∧
    (∃ t, Sys2Proof.core.run s.cfg.bitrunCap
        (s.withInputs (scriptBits (List.replicate s.cfg.bitrunCap .hi))) = .next t ∧
      t.parser = .fresh ∧ t.rsp = { err := 4#3 })) ∧
  (s.parser = .fresh → ∀ b, (∃ c ∈ s.cfg.sp, c ≠ b) → ∀ n, ∃ t,
    Sys2Proof.core.run n (s.withInputs (scriptBits (List.replicate n b))) = .next t ∧ t.stateOut = 0#2)

/-- 10_state.md R36: flat registers and buffer cells that satisfy R35's table belong to exactly one Parser, and a Parser
whose flat registers are those of `fresh()` is `fresh()`. -/
def Obligations.FlatDeterminesParser : Prop :=
  (∀ p p' : Parser, p.flat = p'.flat → p.seq = p'.seq → p.msg = p'.msg → p = p') ∧
  (∀ (f : FlatRegs) seq msg, f.seqLen = seq.length → f.msgLen = msg.length →
    ((f.state = 0#2 ∧ f.win < 2 ^ f.winLen ∧ f.run = 0 ∧ f.runLen = 0 ∧ seq = [] ∧ msg = []) ∨
     (f.state = 1#2 ∧ f.win = 0 ∧ f.winLen = 0 ∧ f.run = 2 ^ f.runLen - 1 ∧ msg = []) ∨
     (f.state = 2#2 ∧ f.win = 0 ∧ f.winLen = 0 ∧ f.run = 0 ∧ f.runLen = 0)) →
    ∃ p : Parser, p.flat = f ∧ p.seq = seq ∧ p.msg = msg) ∧
  (∀ p : Parser, p.flat = Parser.fresh.flat → p = .fresh)

/-- 10_state.md R35: after every step from a state that meets the invariant, the flat registers are in the ranges of one
of the three rows. -/
def Obligations.RegisterRanges : Prop := ∀ (s t : State) (p : Parser) (cfg : Cfg), s.Inv → step s = .next t →
  p = t.parser → cfg = t.cfg →
  (p.flat.state = 0#2 ∧ p.flat.winLen ≤ cfg.spLen ∧ (p.flat.winLen = cfg.spLen → p.win ≠ cfg.sp) ∧
    p.flat.run = 0 ∧ p.flat.runLen = 0 ∧ p.flat.seqLen = 0 ∧ p.flat.msgLen = 0) ∨
  (p.flat.state = 1#2 ∧ p.flat.win = 0 ∧ p.flat.winLen = 0 ∧
    p.flat.runLen + 1 ≤ cfg.bitrunCap ∧ p.flat.run = 2 ^ p.flat.runLen - 1 ∧
    p.flat.seqLen ≤ cfg.symseqCap ∧ .lineBreak ∉ p.seq ∧ p.flat.msgLen = 0) ∨
  (p.flat.state = 2#2 ∧ p.flat.win = 0 ∧ p.flat.winLen = 0 ∧ p.flat.run = 0 ∧ p.flat.runLen = 0 ∧
    1 ≤ p.flat.seqLen ∧ p.flat.seqLen ≤ cfg.symseqCap ∧
    (∃ q, p.seq = q ++ [.lineBreak] ∧ .lineBreak ∉ q) ∧ p.flat.msgLen ≤ cfg.msgCap)

/-- `build_frame` succeeds exactly when every character is supported and the bits fit `FRAME_CAP`, and then gives each
character's bits with its `CharBreak`, in order, and the `LineBreak`. Characters are taken left to right and the first
error met is the one returned, whatever follows: `UnsupportedChar` at an unsupported character when what stands before
it fits, `FullBuffer` when supported characters no longer fit, or only the `LineBreak` does not. There is no other
error (44_frame_format.md R180, R181; 93_implementation_defined.md U21). -/
def Obligations.BuildFrameShape : Prop := ∀ (cfg : Cfg) text,
  (∀ bits, buildFrame cfg text = .ok bits ↔
    (∀ c ∈ text, ∃ q, stEncode cfg c = .ok q) ∧ bits.length ≤ cfg.frameCap ∧
    bits = text.flatMap (charBits cfg) ++ (List.replicate (cfg.len .lineBreak - 1) .hi ++ [.lo])) ∧
  (∀ e, buildFrame cfg text = .err e → e = .unsupportedChar ∨ e = .fullBuffer) ∧
  ((∀ c ∈ text, ∃ q, stEncode cfg c = .ok q) →
    ((text.flatMap (charBits cfg)).length ≤ cfg.frameCap → ∀ c e post, stEncode cfg c = .err e →
      buildFrame cfg (text ++ c :: post) = .err .unsupportedChar) ∧
    (cfg.frameCap < (text.flatMap (charBits cfg)).length → ∀ post,
      buildFrame cfg (text ++ post) = .err .fullBuffer) ∧
    (cfg.frameCap < (text.flatMap (charBits cfg)).length + (symbolToBits cfg .lineBreak).length →
      buildFrame cfg text = .err .fullBuffer))

/-- 44_frame_format.md R184: a frame built from supported text without LF, within the capacities, presented one BIT per
element to a fresh machine, locks at the end of the Start Pattern and nowhere else, reports no error, completes at
its last bit, and leaves the folded text as the message. -/
def Obligations.EndToEnd : Prop := ∀ (s : State) text bits, s.cfg.Valid → s.parser = .fresh →
  (∀ c ∈ text, c ≠ 0x0A#8 ∧ ∃ q, stEncode s.cfg c = .ok q) →
  symbolCount s.cfg text ≤ s.cfg.symseqCap → text.length ≤ s.cfg.msgCap →
  buildFrame s.cfg text = .ok bits →
  ∃ t rs, Sys2Proof.core.run (s.cfg.sp ++ bits).length
      (s.withInputs (scriptBits (s.cfg.sp ++ bits))) = .next t ∧
    t.stateOut = 2#2 ∧ t.parser.held = some (text.map fold) ∧
    t.trace = s.trace ++ rs ∧ rs.length = (s.cfg.sp ++ bits).length ∧
    (∀ k r, rs[k]? = some r → (r.lock = true ↔ k = s.cfg.spLen - 1)) ∧
    (∀ r ∈ rs, r.err = 0#3 ∧ r.ignored = false) ∧
    (∃ r, rs.getLast? = some r ∧ r.done = true)

/-- Every step keeps the invariant, from every state that meets it. Its clause `quiet` is the model's choice (log
entry 19); its clause `thrReset_lt` says of the configuration what 10_state.md R29 says of `THR` (log entry 3). -/
def Obligations.StepKeepsInv : Prop := ∀ s t : State, s.Inv → step s = .next t → t.Inv

/-- The invariant holds right after reset; so the default configuration meets 00_scope.md R7. -/
def Obligations.ResetInv : Prop := State.reset.Inv
end

