-- ==== Sys2Proof/Laws/Codec.lean ====
section
/-! SUPPORT. What the two functions of the Timing Codec answer. -/

namespace Sys2Proof.Machine

variable {cfg : Cfg}

theorem mem_allSymbols (y : MorseSymbol) : y ∈ allSymbols := by cases y <;> decide

theorem symbolOfLen_some {n : Nat} {y : MorseSymbol} (h : symbolOfLen cfg n = some y) : cfg.len y = n := by
  simpa using List.find?_some h

theorem symbolOfLen_none {n : Nat} (h : ∀ y, cfg.len y ≠ n) : symbolOfLen cfg n = none :=
  List.find?_eq_none.mpr fun y _ => by simpa using h y

theorem symbolOfLen_eq_none {n : Nat} : symbolOfLen cfg n = none ↔ ∀ y, cfg.len y ≠ n :=
  ⟨fun h y => by simpa using List.find?_eq_none.mp h y (mem_allSymbols y), symbolOfLen_none⟩

theorem symbolOfLen_len (hv : cfg.Valid) (y : MorseSymbol) : symbolOfLen cfg (cfg.len y) = some y := by
  cases h : symbolOfLen cfg (cfg.len y) with
  | some y' => rw [hv.len_injective _ _ (symbolOfLen_some h)]
  | none => exact absurd rfl (symbolOfLen_eq_none.mp h y)

/-- On a run of `Hi`s ended by one `Lo`, `bits_to_symbol` looks up the length (41_timing_codec.md R123). -/
theorem bitsToSymbol_run {run : List Bit} (h : ∀ b ∈ run, b = .hi) :
    bitsToSymbol cfg (run ++ [.lo]) =
      match symbolOfLen cfg (run.length + 1) with
      | some y => .ok y
      | none => .err .unknownBitSequence := by
  unfold bitsToSymbol
  rw [if_pos ⟨by simpa using h, by simp⟩, List.length_append, List.length_singleton] <;> rfl

theorem bitsToSymbol_err {r : List Bit} {e : ErrorKind} (h : bitsToSymbol cfg r = .err e) :
    e = .unknownBitSequence := by
  unfold bitsToSymbol at h
  split at h
  · split at h <;> cases h
    rfl
  · cases h; rfl

/-- What a success of `bits_to_symbol` says of the run. -/
theorem bitsToSymbol_ok {r : List Bit} {y : MorseSymbol} (h : bitsToSymbol cfg r = .ok y) :
    ∃ run, r = run ++ [.lo] ∧ (∀ b ∈ run, b = .hi) ∧ cfg.len y = run.length + 1 := by
  unfold bitsToSymbol at h
  split at h
  · rename_i hr
    obtain ⟨ha, hl⟩ := hr
    obtain ⟨run, rfl⟩ := List.getLast?_eq_some_iff.mp hl
    refine ⟨run, rfl, by simpa using ha, ?_⟩
    split at h <;> cases h
    rename_i hs
    simpa using symbolOfLen_some hs
  · cases h

theorem bitsToSymbol_of_len (hv : cfg.Valid) {run : List Bit} {y : MorseSymbol} (h : ∀ b ∈ run, b = .hi)
    (hl : cfg.len y = run.length + 1) : bitsToSymbol cfg (run ++ [.lo]) = .ok y := by
  rw [bitsToSymbol_run h, ← hl, symbolOfLen_len hv]

theorem symbolToBits_length (hv : cfg.Valid) (y : MorseSymbol) : (symbolToBits cfg y).length = cfg.len y := by
  have := hv.len_pos y
  simp [symbolToBits]; omega

end Sys2Proof.Machine
end

