-- ==== Sys2Proof/Laws/Codes.lean ====
section
/-! SUPPORT. The codes and packings of Sys2Proof/Decode.lean: what unpacking gives back, and how large a packing is. -/

namespace Sys2Proof

@[simp] theorem bitOfCode_bitCode (b : Bit) : bitOfCode (bitCode b) = b := by cases b <;> rfl

@[simp] theorem symbolOfCode_symbolCode (s : MorseSymbol) : symbolOfCode (symbolCode s) = some s := by
  cases s <;> rfl

theorem bitCode_lt (b : Bit) : bitCode b < 2 := by cases b <;> decide

theorem symbolCode_le (s : MorseSymbol) : symbolCode s ≤ 4 := by cases s <;> decide

theorem symbolOfCode_eq_some {n : Nat} {s : MorseSymbol} : symbolOfCode n = some s ↔ n = symbolCode s := by
  constructor
  · intro h
    unfold symbolOfCode at h
    split at h <;> cases h <;> rfl
  · rintro rfl; simp

theorem symbolOfCode_eq_none : {n : Nat} → (symbolOfCode n = none ↔ 4 < n)
  | 0 | 1 | 2 | 3 | 4 => by decide
  | n + 5 => by simp only [symbolOfCode, true_iff]; omega

theorem packBits_lt : ∀ l : List Bit, packBits l < 2 ^ l.length
  | [] => by decide
  | b :: l => by
    have := packBits_lt l
    have := bitCode_lt b
    simp only [packBits, List.length_cons, Nat.pow_succ]
    omega

theorem packSymbols_lt : ∀ l : List MorseSymbol, packSymbols l < 8 ^ l.length
  | [] => by decide
  | s :: l => by
    have := packSymbols_lt l
    have := symbolCode_le s
    simp only [packSymbols, List.length_cons, Nat.pow_succ]
    omega

theorem unpackBits_packBits : ∀ l : List Bit, unpackBits l.length (packBits l) = l
  | [] => rfl
  | b :: l => by
    have hb := bitCode_lt b
    have h2 : (bitCode b + 2 * packBits l) / 2 = packBits l := by omega
    have h1 : (bitCode b + 2 * packBits l) % 2 = bitCode b := by omega
    simp only [packBits, List.length_cons, unpackBits, h1, h2, bitOfCode_bitCode, unpackBits_packBits l]

theorem unpackSymbols_packSymbols : ∀ l : List MorseSymbol, unpackSymbols l.length (packSymbols l) = some l
  | [] => rfl
  | s :: l => by
    have hs := symbolCode_le s
    have h2 : (symbolCode s + 8 * packSymbols l) / 8 = packSymbols l := by omega
    have h1 : (symbolCode s + 8 * packSymbols l) % 8 = symbolCode s := by omega
    simp only [packSymbols, List.length_cons, unpackSymbols, h1, h2, symbolOfCode_symbolCode,
      unpackSymbols_packSymbols l]

@[simp] theorem unpackBits_length : ∀ n v, (unpackBits n v).length = n
  | 0, _ => rfl
  | n + 1, v => by simp [unpackBits, unpackBits_length n]

theorem unpackBits_getElem? : ∀ n v k, k < n → (unpackBits n v)[k]? = some (bitOfCode (v / 2 ^ k % 2))
  | n + 1, v, 0, _ => by simp [unpackBits]
  | n + 1, v, k + 1, h => by
    simp only [unpackBits, List.getElem?_cons_succ]
    rw [unpackBits_getElem? n (v / 2) k (by omega), Nat.div_div_eq_div_mul, Nat.pow_succ, Nat.mul_comm]

/-- What unpacking a symbol list answers: the list of the first `n` slots when each holds a symbol code. -/
theorem unpackSymbols_eq_some : ∀ {n v : Nat} {q : List MorseSymbol}, unpackSymbols n v = some q ↔
    q.length = n ∧ ∀ k < n, q[k]?.map symbolCode = some (v / 8 ^ k % 8)
  | 0, v, q => by
    constructor
    · intro h; cases h; simp
    · rintro ⟨h, -⟩; rw [List.length_eq_zero_iff] at h; subst h; rfl
  | n + 1, v, q => by
    have ih := @unpackSymbols_eq_some n (v / 8)
    have hk : ∀ k, v / 8 / 8 ^ k = v / 8 ^ (k + 1) := fun k => by
      rw [Nat.div_div_eq_div_mul, Nat.pow_succ, Nat.mul_comm]
    simp only [unpackSymbols]
    constructor
    · intro h
      cases hs : symbolOfCode (v % 8) with
      | none => simp [hs] at h
      | some s =>
        cases hq : unpackSymbols n (v / 8) with
        | none => simp [hs, hq] at h
        | some q' =>
          simp only [hs, hq, Option.some.injEq] at h
          subst h
          obtain ⟨hl, hc⟩ := ih.mp hq
          refine ⟨by simp [hl], fun k hkn => ?_⟩
          cases k with
          | zero => simp [symbolOfCode_eq_some.mp hs]
          | succ k => rw [List.getElem?_cons_succ, hc k (by omega), hk]
    · rintro ⟨hl, hc⟩
      cases q with
      | nil => simp at hl
      | cons s q' =>
        have h0 := hc 0 (by omega)
        simp at h0
        have hs : symbolOfCode (v % 8) = some s := symbolOfCode_eq_some.mpr h0.symm
        have hq : unpackSymbols n (v / 8) = some q' := by
          refine ih.mpr ⟨by simpa using hl, fun k hkn => ?_⟩
          have := hc (k + 1) (by omega)
          rwa [List.getElem?_cons_succ, ← hk] at this
        simp [hs, hq]

/-- Unpacking fails exactly when a slot in use holds a reserved code. -/
theorem unpackSymbols_eq_none : ∀ {n v : Nat}, unpackSymbols n v = none ↔ ∃ k < n, 4 < v / 8 ^ k % 8
  | 0, v => by simp [unpackSymbols]
  | n + 1, v => by
    have ih := @unpackSymbols_eq_none n (v / 8)
    have hk : ∀ k, v / 8 / 8 ^ k = v / 8 ^ (k + 1) := fun k => by
      rw [Nat.div_div_eq_div_mul, Nat.pow_succ, Nat.mul_comm]
    have hR : (∃ k < n + 1, 4 < v / 8 ^ k % 8) ↔ 4 < v % 8 ∨ ∃ k < n, 4 < v / 8 / 8 ^ k % 8 := by
      constructor
      · rintro ⟨k, hkn, h⟩
        cases k with
        | zero => left; simpa using h
        | succ k => exact .inr ⟨k, by omega, by rwa [hk]⟩
      · rintro (h | ⟨k, hkn, h⟩)
        · exact ⟨0, by omega, by simpa using h⟩
        · exact ⟨k + 1, by omega, by rwa [← hk]⟩
    rw [hR, ← ih, ← symbolOfCode_eq_none]
    simp only [unpackSymbols]
    cases symbolOfCode (v % 8) <;> cases unpackSymbols n (v / 8) <;> simp

/-- A field is the slice of the word it names (00_scope.md R11). -/
theorem field_eq_extractLsb' (w : Word) (hi lo : Nat) :
    field w hi lo = (w.extractLsb' lo (hi + 1 - lo)).toNat := by
  simp [field, BitVec.extractLsb'_toNat, Nat.shiftRight_eq_div_pow]

/-- The `n` lowest bits of a word, all below the operation code, are a slice of it (30_encoding.md R73). -/
theorem field_mod (w : Word) {n : Nat} (h : n ≤ 28) : field w 27 0 % 2 ^ n = (w.extractLsb' 0 n).toNat := by
  rw [field_eq_extractLsb', BitVec.extractLsb'_toNat, BitVec.extractLsb'_toNat,
    Nat.mod_mod_of_dvd _ (Nat.pow_dvd_pow 2 h)]

/-- The operation code of a command word built from its code and operand (30_encoding.md R73). -/
theorem field_opWord_code {c o : Nat} (hc : c < 16) (ho : o < 2 ^ 28) :
    field (BitVec.ofNat 32 (c * 2 ^ 28 + o)) 31 28 = c := by
  have h : c * 2 ^ 28 + o < 2 ^ 32 := by omega
  simp only [field, BitVec.toNat_ofNat, Nat.mod_eq_of_lt h]
  omega

/-- Any other field of such a word is a field of the operand. -/
theorem field_opWord_operand {c o hi lo : Nat} (hc : c < 16) (ho : o < 2 ^ 28) (hlo : lo ≤ hi) (hhi : hi < 28) :
    field (BitVec.ofNat 32 (c * 2 ^ 28 + o)) hi lo = o / 2 ^ lo % 2 ^ (hi + 1 - lo) := by
  have h : c * 2 ^ 28 + o < 2 ^ 32 := by omega
  simp only [field, BitVec.toNat_ofNat, Nat.mod_eq_of_lt h]
  have e : c * 2 ^ 28 = 2 ^ lo * (2 ^ (hi + 1 - lo) * (c * 2 ^ (27 - hi))) := by
    rw [← Nat.mul_assoc, ← Nat.pow_add, Nat.mul_left_comm, ← Nat.pow_add]
    congr 2; omega
  rw [e, Nat.mul_add_div (Nat.two_pow_pos lo), Nat.mul_add_mod]

/-- The operand of such a word, when it fits the bits its format assigns. -/
theorem operand_opWord {c o n : Nat} (hc : c < 16) (ho : o < 2 ^ 28) (hn : o < 2 ^ n)
    (k : Nat → Result Reserved Instr) : operand (BitVec.ofNat 32 (c * 2 ^ 28 + o)) n k = k o := by
  have h0 : field (BitVec.ofNat 32 (c * 2 ^ 28 + o)) 27 0 = o := by
    rw [field_opWord_operand hc ho (by decide) (by decide), Nat.pow_zero, Nat.div_one, Nat.mod_eq_of_lt ho]
  have h1 : field (BitVec.ofNat 32 (c * 2 ^ 28 + o)) 27 n = 0 := by
    rcases Nat.lt_or_ge n 28 with h | h
    · rw [field_opWord_operand hc ho (by omega) (by decide), Nat.div_eq_of_lt hn, Nat.zero_mod]
    · rw [field, Nat.sub_eq_zero_of_le h, Nat.pow_zero, Nat.mod_one]
  rw [operand, h1, h0, if_pos rfl, Nat.mod_eq_of_lt hn]

/-- What an accepted operand says of the word: the bits above it are zero. -/
theorem operand_eq_ok {w : Word} {n : Nat} {k : Nat → Result Reserved Instr} {i : Instr} (h : operand w n k = .ok i) :
    field w 27 n = 0 ∧ k (field w 27 0 % 2 ^ n) = .ok i := by
  unfold operand at h
  split at h
  · exact ⟨‹_›, h⟩
  · cases h

/-- The slots of a DEC word, from its operand (30_encoding.md R73, format Q). -/
theorem decodeDec_opWord {q : List MorseSymbol} {o : Nat} (ho : o < 2 ^ 24) (hn : o / 2 ^ 21 % 2 ^ 3 = q.length)
    (hq : o / 2 ^ 0 % 2 ^ 21 = packSymbols q) : decodeDec (BitVec.ofNat 32 (9 * 2 ^ 28 + o)) = .ok (.dec q) := by
  have h28 : o < 2 ^ 28 := Nat.lt_trans ho (by decide)
  unfold decodeDec
  rw [field_opWord_operand (by decide) h28 (by decide) (by decide),
    field_opWord_operand (by decide) h28 (by decide) (by decide), hn, hq, unpackSymbols_packSymbols]

/-- The run of a B2S word, from its operand (30_encoding.md R73, format R). -/
theorem decodeB2s_opWord {r : List Bit} {o : Nat} (ho : o < 2 ^ 12) (hr : r.length ≤ b2sMaxBits)
    (hn : o / 2 ^ 8 % 2 ^ 4 = r.length) (hp : o / 2 ^ 0 % 2 ^ 8 = packBits r) :
    decodeB2s (BitVec.ofNat 32 (11 * 2 ^ 28 + o)) = .ok (.b2s r) := by
  have h28 : o < 2 ^ 28 := Nat.lt_trans ho (by decide)
  unfold decodeB2s
  rw [field_opWord_operand (by decide) h28 (by decide) (by decide),
    field_opWord_operand (by decide) h28 (by decide) (by decide), hn, hp, if_pos hr, unpackBits_packBits]

theorem packBits_append : ∀ a b : List Bit, packBits (a ++ b) = packBits a + 2 ^ a.length * packBits b
  | [], b => by simp [packBits]
  | x :: a, b => by
    simp only [List.cons_append, packBits, packBits_append a b, List.length_cons, Nat.pow_succ']
    rw [Nat.mul_add, Nat.mul_assoc]; omega

theorem packBits_injective {a b : List Bit} (h : a.length = b.length) (hp : packBits a = packBits b) : a = b := by
  rw [← unpackBits_packBits a, ← unpackBits_packBits b, h, hp]

/-- Appending a bit, in the packed form (42_frame_synchronizer.md R138). -/
theorem packBits_snoc (w : List Bit) (b : Bit) : packBits (w ++ [b]) = packBits w ||| (bitCode b <<< w.length) := by
  rw [packBits_append, Nat.shiftLeft_eq, Nat.or_comm, Nat.mul_comm (bitCode b),
    ← Nat.two_pow_add_eq_or_of_lt (packBits_lt w)]
  simp [packBits]; omega

/-- Dropping the oldest bit, in the packed form. -/
theorem packBits_tail (w : List Bit) : packBits w.tail = packBits w >>> 1 := by
  cases w with
  | nil => rfl
  | cons b w =>
    have := bitCode_lt b
    simp only [List.tail_cons, packBits, Nat.shiftRight_eq_div_pow]; omega

theorem packBits_unpackBits : ∀ n v, v < 2 ^ n → packBits (unpackBits n v) = v
  | 0, v, h => by simp at h; simp [unpackBits, packBits, h]
  | n + 1, v, h => by
    rw [Nat.pow_succ] at h
    rw [unpackBits, packBits, packBits_unpackBits n (v / 2) (by omega)]
    have : bitCode (bitOfCode (v % 2)) = v % 2 := by
      rcases Nat.mod_two_eq_zero_or_one v with h | h <;> rw [h] <;> rfl
    omega

/-- A run of `Hi` packs to `2^n - 1` (10_state.md R25). -/
theorem packBits_hi : ∀ run : List Bit, (∀ b ∈ run, b = .hi) → packBits run = 2 ^ run.length - 1
  | [], _ => rfl
  | b :: l, h => by
    have := Nat.two_pow_pos l.length
    simp only [List.mem_cons, forall_eq_or_imp] at h
    rw [packBits, packBits_hi l h.2, h.1, List.length_cons, Nat.pow_succ]; simp [bitCode]; omega

/-- Slot `k` of a packed symbol list. -/
theorem packSymbols_slot : ∀ (q : List MorseSymbol) k, packSymbols q / 8 ^ k % 8 = ((q[k]?.map symbolCode).getD 0)
  | [], k => by simp [packSymbols]
  | y :: q, 0 => by have := symbolCode_le y; simp [packSymbols]; omega
  | y :: q, k + 1 => by
    have := symbolCode_le y
    rw [packSymbols, Nat.pow_succ', ← Nat.div_div_eq_div_mul, List.getElem?_cons_succ, ← packSymbols_slot q k]
    congr 2
    omega

end Sys2Proof
end

