-- ==== Sys2Proof/Laws/Tables.lean ====
section
/-! SUPPORT. What the two lookups of the Symbol Table answer, and what 00_scope.md R7 says of a row. -/

namespace Sys2Proof.Machine

theorem eq_of_nodup_map {α β : Type} {f : α → β} : ∀ {l : List α}, (l.map f).Nodup →
    ∀ {a b : α}, a ∈ l → b ∈ l → f a = f b → a = b
  | [], _, _, _, ha, _, _ => by simp at ha
  | x :: l, h, a, b, ha, hb, hab => by
    rw [List.map_cons, List.nodup_cons] at h
    rcases List.mem_cons.mp ha with rfl | ha' <;> rcases List.mem_cons.mp hb with rfl | hb'
    · rfl
    · exact absurd (List.mem_map.mpr ⟨b, hb', hab.symm⟩) h.1
    · exact absurd (List.mem_map.mpr ⟨a, ha', hab⟩) h.1
    · exact eq_of_nodup_map h.2 ha' hb' hab

variable {cfg : Cfg} {c ch : Byte} {q : List MorseSymbol} {e : ErrorKind}

/-- Everything `encode` can answer (40_symbol_table.md R103). -/
theorem stEncode_cases (cfg : Cfg) (c : Byte) :
    (∃ q, stEncode cfg c = .ok q ∧ (fold c, q) ∈ cfg.table) ∨
    (stEncode cfg c = .err .unsupportedChar ∧ ∀ q, (fold c, q) ∉ cfg.table) := by
  unfold stEncode
  cases h : cfg.table.find? fun row => row.1 = fold c with
  | some row =>
    obtain ⟨a, b⟩ := row
    have h1 := List.find?_some h
    have h2 := List.mem_of_find?_eq_some h
    simp only [decide_eq_true_eq] at h1
    exact .inl ⟨b, rfl, h1 ▸ h2⟩
  | none =>
    refine .inr ⟨rfl, fun q hq => ?_⟩
    have := List.find?_eq_none.mp h _ hq
    simp at this

theorem stEncode_ok_mem (h : stEncode cfg c = .ok q) : (fold c, q) ∈ cfg.table := by
  obtain ⟨q', h', hm⟩ | ⟨h', -⟩ := stEncode_cases cfg c
  · rw [h] at h'; cases h'; exact hm
  · rw [h] at h'; cases h'

theorem stEncode_of_mem (hv : cfg.Valid) (hm : (fold c, q) ∈ cfg.table) : stEncode cfg c = .ok q := by
  obtain ⟨q', h', hm'⟩ | ⟨-, hn⟩ := stEncode_cases cfg c
  · have := eq_of_nodup_map hv.table_chars hm hm' rfl
    cases this; exact h'
  · exact absurd hm (hn q)

theorem stEncode_err (h : stEncode cfg c = .err e) : e = .unsupportedChar := by
  obtain ⟨q', h', -⟩ | ⟨h', -⟩ := stEncode_cases cfg c <;> rw [h] at h' <;> cases h'
  rfl

/-- Everything `decode` can answer (40_symbol_table.md R104). -/
theorem stDecode_cases (cfg : Cfg) (q : List MorseSymbol) :
    (q = [] ∧ stDecode cfg q = .ok none) ∨
    (∃ ch, q ≠ [] ∧ stDecode cfg q = .ok (some ch) ∧ (ch, q) ∈ cfg.table) ∨
    (q ≠ [] ∧ stDecode cfg q = .err .unknownSequence ∧ ∀ row ∈ cfg.table, row.2 ≠ q) := by
  unfold stDecode
  by_cases hq : q = []
  · exact .inl ⟨hq, if_pos hq⟩
  · rw [if_neg hq]
    cases h : cfg.table.find? fun row => row.2 = q with
    | some row =>
      obtain ⟨a, b⟩ := row
      have h1 := List.find?_some h
      have h2 := List.mem_of_find?_eq_some h
      simp only [decide_eq_true_eq] at h1
      exact .inr (.inl ⟨a, hq, rfl, h1 ▸ h2⟩)
    | none =>
      refine .inr (.inr ⟨hq, rfl, fun row hr => ?_⟩)
      simpa using List.find?_eq_none.mp h _ hr

@[simp] theorem stDecode_nil (cfg : Cfg) : stDecode cfg [] = .ok none := if_pos rfl

theorem stDecode_some_mem (h : stDecode cfg q = .ok (some ch)) : (ch, q) ∈ cfg.table := by
  obtain ⟨-, h'⟩ | ⟨ch', -, h', hm⟩ | ⟨-, h', -⟩ := stDecode_cases cfg q <;> rw [h] at h' <;> cases h'
  exact hm

theorem stDecode_none (h : stDecode cfg q = .ok none) : q = [] := by
  obtain ⟨hq, -⟩ | ⟨ch', -, h', -⟩ | ⟨-, h', -⟩ := stDecode_cases cfg q
  · exact hq
  all_goals rw [h] at h'; cases h'

theorem stDecode_err (h : stDecode cfg q = .err e) : e = .unknownSequence := by
  obtain ⟨-, h'⟩ | ⟨ch', -, h', -⟩ | ⟨-, h', -⟩ := stDecode_cases cfg q <;> rw [h] at h' <;> cases h'
  rfl

theorem stDecode_unknown (hq : q ≠ []) (hn : ∀ row ∈ cfg.table, row.2 ≠ q) :
    stDecode cfg q = .err .unknownSequence := by
  obtain ⟨h, -⟩ | ⟨ch', -, -, hm⟩ | ⟨-, h', -⟩ := stDecode_cases cfg q
  · exact absurd h hq
  · exact absurd rfl (hn _ hm)
  · exact h'

variable (hv : cfg.Valid) (hm : (ch, q) ∈ cfg.table)
include hv hm

/-- A row is space, newline, or a non-empty sequence of `Dot` and `Dash` (00_scope.md R7). -/
theorem row_cases : (ch = 0x20#8 ∧ q = [.wordBreak]) ∨ (ch = 0x0A#8 ∧ q = [.lineBreak]) ∨
    (ch ≠ 0x20#8 ∧ ch ≠ 0x0A#8 ∧ q ≠ [] ∧ ∀ s ∈ q, s = .dot ∨ s = .dash) := by
  obtain ⟨-, h1, h2, h3⟩ := hv.table_rows _ hm
  by_cases ha : ch = 0x20#8
  · exact .inl ⟨ha, h1 ha⟩
  · by_cases hb : ch = 0x0A#8
    · exact .inr (.inl ⟨hb, h2 hb⟩)
    · exact .inr (.inr ⟨ha, hb, h3 ha hb⟩)

theorem row_ne_nil : q ≠ [] := by
  obtain ⟨-, rfl⟩ | ⟨-, rfl⟩ | ⟨-, -, h, -⟩ := row_cases hv hm
  · simp
  · simp
  · exact h

theorem row_no_charBreak : .charBreak ∉ q := by
  obtain ⟨-, rfl⟩ | ⟨-, rfl⟩ | ⟨-, -, -, h⟩ := row_cases hv hm
  · simp
  · simp
  · intro hc; cases h _ hc <;> contradiction

theorem row_lineBreak (h : .lineBreak ∈ q) : ch = 0x0A#8 ∧ q = [.lineBreak] := by
  obtain ⟨-, rfl⟩ | ⟨h1, h2⟩ | ⟨-, -, -, h'⟩ := row_cases hv hm
  · simp at h
  · exact ⟨h1, h2⟩
  · cases h' _ h <;> contradiction

theorem row_no_lineBreak (h : ch ≠ 0x0A#8) : .lineBreak ∉ q := fun hq => h (row_lineBreak hv hm hq).1

theorem stDecode_of_mem : stDecode cfg q = .ok (some ch) := by
  obtain ⟨h, -⟩ | ⟨ch', -, h', hm'⟩ | ⟨-, -, hn⟩ := stDecode_cases cfg q
  · exact absurd h (row_ne_nil hv hm)
  · have := eq_of_nodup_map hv.table_injective hm hm' rfl
    cases this; exact h'
  · exact absurd rfl (hn _ hm)

end Sys2Proof.Machine
end

