-- ==== Sys2Proof/Laws/Process.lean ====
section
/-! SUPPORT. The Processing step (43_decoder_state_machine.md R160): the split at `CharBreak`s and the loop over the
sub-lists. -/

namespace Sys2Proof.Machine

theorem splitBreaks_break (q : List MorseSymbol) : splitBreaks (.charBreak :: q) = [] :: splitBreaks q := rfl

theorem splitBreaks_cons {s : MorseSymbol} {q sub : List MorseSymbol} {subs} (hs : s ≠ .charBreak)
    (h : splitBreaks q = sub :: subs) : splitBreaks (s :: q) = (s :: sub) :: subs := by
  simp only [splitBreaks, if_neg hs, h]

theorem splitBreaks_ne_nil : ∀ q, splitBreaks q ≠ []
  | [] => by simp [splitBreaks]
  | s :: q => by
    have := splitBreaks_ne_nil q
    unfold splitBreaks
    split
    · simp
    · split <;> simp

/-- A list without `CharBreak` is one sub-list. -/
theorem splitBreaks_single : ∀ {q : List MorseSymbol}, .charBreak ∉ q → splitBreaks q = [q]
  | [], _ => rfl
  | s :: q, h => by
    rw [List.mem_cons, not_or] at h
    unfold splitBreaks
    rw [if_neg (Ne.symm h.1), splitBreaks_single h.2]

/-- A `CharBreak` separates the sub-lists before it from those after it. -/
theorem splitBreaks_append : ∀ a b : List MorseSymbol,
    splitBreaks (a ++ .charBreak :: b) = splitBreaks a ++ splitBreaks b
  | [], b => by simp [splitBreaks]
  | s :: a, b => by
    have ih := splitBreaks_append a b
    obtain ⟨sub, subs, h⟩ := List.exists_cons_of_ne_nil (splitBreaks_ne_nil a)
    by_cases hs : s = .charBreak
    · rw [hs, List.cons_append, splitBreaks_break, splitBreaks_break, ih, List.cons_append]
    · rw [h, List.cons_append] at ih
      rw [List.cons_append, splitBreaks_cons hs ih, splitBreaks_cons hs h, List.cons_append]

variable {cfg : Cfg}

/-- The loop over the first sub-lists, then over the others with the message they gave. -/
theorem processSubs_append : ∀ (a b : List (List MorseSymbol)) (m : List Byte),
    processSubs cfg (a ++ b) m =
      match processSubs cfg a m with
      | .ok m' => processSubs cfg b m'
      | .err e => .err e
  | [], _, _ => rfl
  | sub :: a, b, m => by
    have ih := processSubs_append a b
    rw [List.cons_append]
    simp only [processSubs]
    split
    · exact ih m
    · split
      · rfl
      · exact ih m
      · split
        · rfl
        · exact ih _

/-- One sub-list: what it does to the message so far. -/
theorem processSubs_cons_skip {sub : List MorseSymbol} {subs m} (h : sub = [] ∨ sub = [.lineBreak]) :
    processSubs cfg (sub :: subs) m = processSubs cfg subs m := by
  simp only [processSubs, if_pos h]

theorem processSubs_cons_char {sub : List MorseSymbol} {subs m ch} (h1 : sub ≠ []) (h2 : sub ≠ [.lineBreak])
    (hd : stDecode cfg sub = .ok (some ch)) (hl : m.length ≠ cfg.msgCap) :
    processSubs cfg (sub :: subs) m = processSubs cfg subs (m ++ [ch]) := by
  simp only [processSubs, if_neg (not_or.mpr ⟨h1, h2⟩), hd, msgAppend, if_neg hl]

theorem processSubs_cons_full {sub : List MorseSymbol} {subs m ch} (h1 : sub ≠ []) (h2 : sub ≠ [.lineBreak])
    (hd : stDecode cfg sub = .ok (some ch)) (hl : m.length = cfg.msgCap) :
    processSubs cfg (sub :: subs) m = .err .fullBuffer := by
  simp only [processSubs, if_neg (not_or.mpr ⟨h1, h2⟩), hd, msgAppend, if_pos hl]

theorem processSubs_cons_unknown {sub : List MorseSymbol} {subs m} (h1 : sub ≠ []) (h2 : sub ≠ [.lineBreak])
    (hd : stDecode cfg sub = .err .unknownSequence) :
    processSubs cfg (sub :: subs) m = .err .unknownSequence := by
  simp only [processSubs, if_neg (not_or.mpr ⟨h1, h2⟩), hd]

/-- Everything one sub-list can do. -/
theorem processSubs_cons_cases (cfg : Cfg) (sub : List MorseSymbol) (subs : List (List MorseSymbol)) (m : List Byte) :
    ((sub = [] ∨ sub = [.lineBreak]) ∧ processSubs cfg (sub :: subs) m = processSubs cfg subs m) ∨
    (∃ ch, sub ≠ [] ∧ sub ≠ [.lineBreak] ∧ (ch, sub) ∈ cfg.table ∧ m.length ≠ cfg.msgCap ∧
      processSubs cfg (sub :: subs) m = processSubs cfg subs (m ++ [ch])) ∨
    (∃ ch, sub ≠ [] ∧ sub ≠ [.lineBreak] ∧ (ch, sub) ∈ cfg.table ∧ m.length = cfg.msgCap ∧
      processSubs cfg (sub :: subs) m = .err .fullBuffer) ∨
    (processSubs cfg (sub :: subs) m = .err .unknownSequence) := by
  by_cases hs : sub = [] ∨ sub = [.lineBreak]
  · exact .inl ⟨hs, processSubs_cons_skip hs⟩
  · have hs' := not_or.mp hs
    obtain ⟨h, -⟩ | ⟨ch, -, hd, hm⟩ | ⟨-, hd, -⟩ := stDecode_cases cfg sub
    · exact absurd h hs'.1
    · by_cases hl : m.length = cfg.msgCap
      · exact .inr (.inr (.inl ⟨ch, hs'.1, hs'.2, hm, hl, processSubs_cons_full hs'.1 hs'.2 hd hl⟩))
      · exact .inr (.inl ⟨ch, hs'.1, hs'.2, hm, hl, processSubs_cons_char hs'.1 hs'.2 hd hl⟩)
    · exact .inr (.inr (.inr (processSubs_cons_unknown hs'.1 hs'.2 hd)))

/-- The message never outgrows its buffer (20_memory.md R52). -/
theorem processSubs_length : ∀ {subs : List (List MorseSymbol)} {m m' : List Byte},
    m.length ≤ cfg.msgCap → processSubs cfg subs m = .ok m' → m'.length ≤ cfg.msgCap
  | [], m, m', hm, h => by cases h; exact hm
  | sub :: subs, m, m', hm, h => by
    obtain ⟨-, h'⟩ | ⟨ch, -, -, -, hl, h'⟩ | ⟨ch, -, -, -, -, h'⟩ | h' := processSubs_cons_cases cfg sub subs m <;>
      rw [h'] at h
    · exact processSubs_length hm h
    · exact processSubs_length (by simp; omega) h
    all_goals cases h

theorem process_length {q : List MorseSymbol} {m : List Byte} (h : process cfg q = .ok m) :
    m.length ≤ cfg.msgCap := processSubs_length (Nat.zero_le _) h

/-- The two errors of the Processing step (43_decoder_state_machine.md R163). -/
theorem processSubs_err : ∀ {subs : List (List MorseSymbol)} {m : List Byte} {e},
    processSubs cfg subs m = .err e → e = .unknownSequence ∨ e = .fullBuffer
  | [], m, e, h => by cases h
  | sub :: subs, m, e, h => by
    obtain ⟨-, h'⟩ | ⟨ch, -, -, -, hl, h'⟩ | ⟨ch, -, -, -, -, h'⟩ | h' := processSubs_cons_cases cfg sub subs m <;>
      rw [h'] at h
    · exact processSubs_err h
    · exact processSubs_err h
    all_goals cases h; simp

theorem process_err {q : List MorseSymbol} {e : ErrorKind} (h : process cfg q = .err e) :
    e = .unknownSequence ∨ e = .fullBuffer := processSubs_err h

/-- The first `CharBreak` of a list. -/
theorem first_charBreak : ∀ {l : List MorseSymbol}, .charBreak ∈ l → ∃ a b, l = a ++ .charBreak :: b ∧ .charBreak ∉ a
  | [], h => by simp at h
  | y :: l, h => by
    by_cases hy : y = .charBreak
    · exact ⟨[], l, by simp [hy], by simp⟩
    · obtain ⟨a, b, h1, h2⟩ := first_charBreak (l := l) (by simpa [Ne.symm hy] using h)
      exact ⟨y :: a, b, by simp [h1], by simp [h2, Ne.symm hy]⟩

/-- Where the characters of a message come from. -/
theorem processSubs_mem : ∀ (subs : List (List MorseSymbol)) (m m' : List Byte), processSubs cfg subs m = .ok m' →
    ∀ ch ∈ m', ch ∈ m ∨ ∃ sub ∈ subs, sub ≠ [.lineBreak] ∧ (ch, sub) ∈ cfg.table := by
  intro subs
  induction subs with
  | nil => intro m m' h ch hc; cases h; exact .inl hc
  | cons sub subs ih =>
    intro m m' h ch hc
    obtain ⟨-, h'⟩ | ⟨ch', h1, h2, hm, -, h'⟩ | ⟨_, -, -, -, -, h'⟩ | h' := processSubs_cons_cases cfg sub subs m <;>
      rw [h'] at h
    · rcases ih _ _ h ch hc with hh | ⟨sub', hs, hh⟩
      · exact .inl hh
      · exact .inr ⟨sub', by simp [hs], hh⟩
    · rcases ih _ _ h ch hc with hh | ⟨sub', hs, hh⟩
      · rcases List.mem_append.mp hh with hh | hh
        · exact .inl hh
        · simp at hh; subst hh; exact .inr ⟨sub, by simp, h2, hm⟩
      · exact .inr ⟨sub', by simp [hs], hh⟩
    · cases h
    · cases h

end Sys2Proof.Machine
end

