-- ==== Sys2Proof/Laws/State.lean ====
section
/-! SUPPORT. One lemma per field per update of State, so that no proof unfolds a record update. -/

namespace Sys2Proof.Machine

variable (s : State)

@[simp] theorem State.withParser_cfg (p : Parser) : (s.withParser p).cfg = s.cfg := rfl
@[simp] theorem State.withParser_parser (p : Parser) : (s.withParser p).parser = p := rfl
@[simp] theorem State.withParser_thr (p : Parser) : (s.withParser p).thr = s.thr := rfl
@[simp] theorem State.withParser_rspValid (p : Parser) : (s.withParser p).rspValid = s.rspValid := rfl
@[simp] theorem State.withParser_rsp (p : Parser) : (s.withParser p).rsp = s.rsp := rfl
@[simp] theorem State.withParser_trace (p : Parser) : (s.withParser p).trace = s.trace := rfl
@[simp] theorem State.withParser_inputs (p : Parser) : (s.withParser p).inputs = s.inputs := rfl

@[simp] theorem State.withThr_cfg (v : Sample) : (s.withThr v).cfg = s.cfg := rfl
@[simp] theorem State.withThr_parser (v : Sample) : (s.withThr v).parser = s.parser := rfl
@[simp] theorem State.withThr_thr (v : Sample) : (s.withThr v).thr = v := rfl
@[simp] theorem State.withThr_rspValid (v : Sample) : (s.withThr v).rspValid = s.rspValid := rfl
@[simp] theorem State.withThr_rsp (v : Sample) : (s.withThr v).rsp = s.rsp := rfl
@[simp] theorem State.withThr_trace (v : Sample) : (s.withThr v).trace = s.trace := rfl
@[simp] theorem State.withThr_inputs (v : Sample) : (s.withThr v).inputs = s.inputs := rfl

@[simp] theorem State.withInputs_cfg (l : List HostInput) : (s.withInputs l).cfg = s.cfg := rfl
@[simp] theorem State.withInputs_parser (l : List HostInput) : (s.withInputs l).parser = s.parser := rfl
@[simp] theorem State.withInputs_thr (l : List HostInput) : (s.withInputs l).thr = s.thr := rfl
@[simp] theorem State.withInputs_rspValid (l : List HostInput) : (s.withInputs l).rspValid = s.rspValid := rfl
@[simp] theorem State.withInputs_rsp (l : List HostInput) : (s.withInputs l).rsp = s.rsp := rfl
@[simp] theorem State.withInputs_trace (l : List HostInput) : (s.withInputs l).trace = s.trace := rfl
@[simp] theorem State.withInputs_inputs (l : List HostInput) : (s.withInputs l).inputs = l := rfl

@[simp] theorem State.respond_cfg (r : Rsp) : (s.respond r).cfg = s.cfg := rfl
@[simp] theorem State.respond_parser (r : Rsp) : (s.respond r).parser = s.parser := rfl
@[simp] theorem State.respond_thr (r : Rsp) : (s.respond r).thr = s.thr := rfl
@[simp] theorem State.respond_rspValid (r : Rsp) : (s.respond r).rspValid = true := rfl
@[simp] theorem State.respond_rsp (r : Rsp) : (s.respond r).rsp = r := rfl
@[simp] theorem State.respond_trace (r : Rsp) : (s.respond r).trace = s.trace ++ [r] := rfl
@[simp] theorem State.respond_inputs (r : Rsp) : (s.respond r).inputs = s.inputs := rfl

@[simp] theorem State.idle_cfg : (s.idle).cfg = s.cfg := rfl
@[simp] theorem State.idle_parser : (s.idle).parser = s.parser := rfl
@[simp] theorem State.idle_thr : (s.idle).thr = s.thr := rfl
@[simp] theorem State.idle_rspValid : (s.idle).rspValid = false := rfl
@[simp] theorem State.idle_rsp : (s.idle).rsp = {} := rfl
@[simp] theorem State.idle_trace : (s.idle).trace = s.trace := rfl
@[simp] theorem State.idle_inputs : (s.idle).inputs = s.inputs := rfl

@[simp] theorem State.resetCore_cfg : (s.resetCore).cfg = s.cfg := rfl
@[simp] theorem State.resetCore_parser : (s.resetCore).parser = .fresh := rfl
@[simp] theorem State.resetCore_thr : (s.resetCore).thr = s.cfg.thrReset := rfl
@[simp] theorem State.resetCore_rspValid : (s.resetCore).rspValid = false := rfl
@[simp] theorem State.resetCore_rsp : (s.resetCore).rsp = {} := rfl
@[simp] theorem State.resetCore_trace : (s.resetCore).trace = s.trace := rfl
@[simp] theorem State.resetCore_inputs : (s.resetCore).inputs = s.inputs := rfl

end Sys2Proof.Machine
end

