-- ==== Sys2Proof/Laws/Sync.lean ====
section
/-! SUPPORT. What one push of the Frame Synchronizer can do (42_frame_synchronizer.md R137). -/

namespace Sys2Proof.Machine

/-- The window after the shift, before the comparison. -/
theorem fsPush_cases (cfg : Cfg) (win : List Bit) (b : Bit) :
    ∃ w, ((win.length < cfg.spLen ∧ w = win ++ [b]) ∨ (cfg.spLen ≤ win.length ∧ w = win.tail ++ [b])) ∧
      ((w = cfg.sp ∧ fsPush cfg win b = ([], true)) ∨ (w ≠ cfg.sp ∧ fsPush cfg win b = (w, false))) := by
  unfold fsPush
  refine ⟨if win.length < cfg.spLen then win ++ [b] else win.tail ++ [b], ?_, ?_⟩
  · by_cases h : win.length < cfg.spLen
    · exact .inl ⟨h, if_pos h⟩
    · exact .inr ⟨by omega, if_neg h⟩
  · generalize (if win.length < cfg.spLen then win ++ [b] else win.tail ++ [b]) = w
    by_cases h : w = cfg.sp
    · subst_vars
      exact .inl ⟨rfl, if_pos ⟨rfl, rfl⟩⟩
    · exact .inr ⟨h, if_neg fun h' => h h'.2⟩

theorem fsPush_locked {cfg : Cfg} {win : List Bit} {b : Bit} (h : (fsPush cfg win b).2 = true) :
    (fsPush cfg win b).1 = [] := by
  obtain ⟨w, -, ⟨-, hw⟩ | ⟨-, hw⟩⟩ := fsPush_cases cfg win b <;> rw [hw] at h ⊢
  simp at h

/-- A push without lock leaves a window the invariant allows (10_state.md R24). -/
theorem fsPush_window {cfg : Cfg} {win : List Bit} {b : Bit} (hsp : 1 ≤ cfg.spLen) (hw : win.length ≤ cfg.spLen)
    (h : (fsPush cfg win b).2 = false) :
    (fsPush cfg win b).1.length ≤ cfg.spLen ∧ (fsPush cfg win b).1 ≠ cfg.sp := by
  obtain ⟨w, hs, ⟨-, he⟩ | ⟨hn, he⟩⟩ := fsPush_cases cfg win b <;> rw [he] at h ⊢
  · simp at h
  · refine ⟨?_, hn⟩
    obtain ⟨h1, rfl⟩ | ⟨h1, rfl⟩ := hs <;> simp <;> omega

theorem fsStream_append (cfg : Cfg) : ∀ (a b : List Bit) (win : List Bit), fsStream cfg win (a ++ b) =
    ((fsStream cfg (fsStream cfg win a).1 b).1, (fsStream cfg win a).2 ++ (fsStream cfg (fsStream cfg win a).1 b).2)
  | [], _, _ => rfl
  | x :: a, b, win => by simp [fsStream, fsStream_append cfg a b]

@[simp] theorem fsStream_length (cfg : Cfg) : ∀ (a : List Bit) (win : List Bit), (fsStream cfg win a).2.length = a.length
  | [], _ => rfl
  | x :: a, win => by simp [fsStream, fsStream_length cfg a]

end Sys2Proof.Machine
end

