-- ==== Sys2Proof/Laws/Decoder.lean ====
section
/-! SUPPORT. What one bit can do to the Parser (43_decoder_state_machine.md R170), and what a list of bits does to the
machine. -/

namespace Sys2Proof.Machine

variable {cfg : Cfg}

/-! ### The rows of the transition table -/

theorem bitHi_room {r : List Bit} {seq} (h : r.length ≠ cfg.bitrunCap) : bitHi cfg r seq = (.listening r seq, {}) :=
  if_neg h

theorem bitHi_full {r : List Bit} {seq} (h : r.length = cfg.bitrunCap) :
    bitHi cfg r seq = errorEntry {} .fullBuffer := if_pos h

theorem bitLo_err {r : List Bit} {seq} {e} (h : bitsToSymbol cfg r = .err e) : bitLo cfg r seq = errorEntry {} e := by
  simp only [bitLo, h]

theorem bitLo_full {r : List Bit} {seq} {y} (h : bitsToSymbol cfg r = .ok y) (hl : seq.length = cfg.symseqCap) :
    bitLo cfg r seq = errorEntry (.resolved y) .fullBuffer := by
  simp only [bitLo, h, seqAppend, if_pos hl]

theorem bitLo_symbol {r : List Bit} {seq} {y} (h : bitsToSymbol cfg r = .ok y) (hl : seq.length ≠ cfg.symseqCap)
    (hy : y ≠ .lineBreak) : bitLo cfg r seq = (.listening [] (seq ++ [y]), .resolved y) := by
  simp only [bitLo, h, seqAppend, if_neg hl, if_neg hy]

theorem bitLo_lineBreak {r : List Bit} {seq} (h : bitsToSymbol cfg r = .ok .lineBreak)
    (hl : seq.length ≠ cfg.symseqCap) : bitLo cfg r seq = finishMessage cfg (seq ++ [.lineBreak]) := by
  simp only [bitLo, h, seqAppend, if_neg hl, if_pos]

theorem finishMessage_ok {q m} (h : process cfg q = .ok m) :
    finishMessage cfg q = (.processing q m, (Rsp.resolved .lineBreak).withDone) := by
  simp only [finishMessage, h]

theorem finishMessage_err {q e} (h : process cfg q = .err e) :
    finishMessage cfg q = errorEntry (.resolved .lineBreak) e := by
  simp only [finishMessage, h]

/-- Everything one bit can do, row by row (43_decoder_state_machine.md R170). -/
theorem parserBit_cases (cfg : Cfg) (p : Parser) (b : Bit) :
    (∃ win, p = .waitingForStart win ∧ (fsPush cfg win b).2 = false ∧
      parserBit cfg p b = (.waitingForStart (fsPush cfg win b).1, {})) ∨
    (∃ win, p = .waitingForStart win ∧ (fsPush cfg win b).2 = true ∧
      parserBit cfg p b = (.listening [] [], .locked)) ∨
    (∃ run seq, p = .listening run seq ∧ b = .hi ∧ run.length + 1 ≠ cfg.bitrunCap ∧
      parserBit cfg p b = (.listening (run ++ [.hi]) seq, {})) ∨
    (∃ run seq, p = .listening run seq ∧ b = .hi ∧ run.length + 1 = cfg.bitrunCap ∧
      parserBit cfg p b = errorEntry {} .fullBuffer) ∨
    (∃ run seq, p = .listening run seq ∧ b = .lo ∧ bitsToSymbol cfg (run ++ [.lo]) = .err .unknownBitSequence ∧
      parserBit cfg p b = errorEntry {} .unknownBitSequence) ∨
    (∃ run seq y, p = .listening run seq ∧ b = .lo ∧ bitsToSymbol cfg (run ++ [.lo]) = .ok y ∧
      seq.length = cfg.symseqCap ∧ parserBit cfg p b = errorEntry (.resolved y) .fullBuffer) ∨
    (∃ run seq y, p = .listening run seq ∧ b = .lo ∧ bitsToSymbol cfg (run ++ [.lo]) = .ok y ∧
      seq.length ≠ cfg.symseqCap ∧ y ≠ .lineBreak ∧
      parserBit cfg p b = (.listening [] (seq ++ [y]), .resolved y)) ∨
    (∃ run seq m, p = .listening run seq ∧ b = .lo ∧ bitsToSymbol cfg (run ++ [.lo]) = .ok .lineBreak ∧
      seq.length ≠ cfg.symseqCap ∧ process cfg (seq ++ [.lineBreak]) = .ok m ∧
      parserBit cfg p b = (.processing (seq ++ [.lineBreak]) m, (Rsp.resolved .lineBreak).withDone)) ∨
    (∃ run seq e, p = .listening run seq ∧ b = .lo ∧ bitsToSymbol cfg (run ++ [.lo]) = .ok .lineBreak ∧
      seq.length ≠ cfg.symseqCap ∧ process cfg (seq ++ [.lineBreak]) = .err e ∧
      (e = .unknownSequence ∨ e = .fullBuffer) ∧
      parserBit cfg p b = errorEntry (.resolved .lineBreak) e) ∨
    (∃ seq msg, p = .processing seq msg ∧ parserBit cfg p b = (p, .ignoring)) := by
  match p with
  | .waitingForStart win =>
    cases h : (fsPush cfg win b).2 with
    | false => exact .inl ⟨win, rfl, h, by simp [parserBit, bitWaiting, h]⟩
    | true => exact .inr (.inl ⟨win, rfl, h, by simp [parserBit, bitWaiting, h]⟩)
  | .listening run seq =>
    cases b with
    | hi =>
      by_cases hc : run.length + 1 = cfg.bitrunCap
      · exact .inr (.inr (.inr (.inl ⟨run, seq, rfl, rfl, hc, bitHi_full (by simpa using hc)⟩)))
      · exact .inr (.inr (.inl ⟨run, seq, rfl, rfl, hc, bitHi_room (by simpa using hc)⟩))
    | lo =>
      refine .inr (.inr (.inr (.inr ?_)))
      cases hb : bitsToSymbol cfg (run ++ [.lo]) with
      | err e =>
        cases bitsToSymbol_err hb
        exact .inl ⟨run, seq, rfl, rfl, hb, bitLo_err hb⟩
      | ok y =>
        refine .inr ?_
        by_cases hl : seq.length = cfg.symseqCap
        · exact .inl ⟨run, seq, y, rfl, rfl, hb, hl, bitLo_full hb hl⟩
        · refine .inr ?_
          by_cases hy : y = .lineBreak
          · subst hy
            refine .inr ?_
            have hlo : parserBit cfg (.listening run seq) .lo = finishMessage cfg (seq ++ [.lineBreak]) :=
              bitLo_lineBreak hb hl
            cases hp : process cfg (seq ++ [.lineBreak]) with
            | ok m => exact .inl ⟨run, seq, m, rfl, rfl, hb, hl, hp, hlo.trans (finishMessage_ok hp)⟩
            | err e =>
              exact .inr (.inl ⟨run, seq, e, rfl, rfl, hb, hl, hp, process_err hp, hlo.trans (finishMessage_err hp)⟩)
          · exact .inl ⟨run, seq, y, rfl, rfl, hb, hl, hy, bitLo_symbol hb hl hy⟩
  | .processing seq msg =>
    exact .inr (.inr (.inr (.inr (.inr (.inr (.inr (.inr (.inr ⟨seq, msg, rfl, rfl⟩))))))))

/-! ### Bits fed to the machine -/

section feed
variable (s : State) (b : Bit) (v : Sample)

@[simp] theorem State.feedBit_cfg : (s.feedBit b).cfg = s.cfg := rfl
@[simp] theorem State.feedBit_parser : (s.feedBit b).parser = (parserBit s.cfg s.parser b).1 := rfl
@[simp] theorem State.feedBit_thr : (s.feedBit b).thr = s.thr := rfl
@[simp] theorem State.feedBit_rspValid : (s.feedBit b).rspValid = true := rfl
@[simp] theorem State.feedBit_rsp : (s.feedBit b).rsp = (parserBit s.cfg s.parser b).2 := rfl
@[simp] theorem State.feedBit_trace : (s.feedBit b).trace = s.trace ++ [(parserBit s.cfg s.parser b).2] := rfl
@[simp] theorem State.feedBit_inputs : (s.feedBit b).inputs = s.inputs := rfl
@[simp] theorem State.feedSample_cfg : (s.feedSample v).cfg = s.cfg := rfl
@[simp] theorem State.feedSample_thr : (s.feedSample v).thr = s.thr := rfl
@[simp] theorem State.feedSample_inputs : (s.feedSample v).inputs = s.inputs := rfl
@[simp] theorem State.feedSample_parser :
    (s.feedSample v).parser = (parserBit s.cfg s.parser (sampleBit s.thr v)).1 := rfl
@[simp] theorem State.feedSample_rsp : (s.feedSample v).rsp =
    (parserBit s.cfg s.parser (sampleBit s.thr v)).2.withData (sampleData (sampleBit s.thr v)) := rfl

end feed

/-- What a list of bits does to the Parser, and the responses, first first. -/
def parserBits (cfg : Cfg) (p : Parser) : List Bit → Parser × List Rsp
  | [] => (p, [])
  | b :: l =>
    ((parserBits cfg (parserBit cfg p b).1 l).1,
      (parserBit cfg p b).2 :: (parserBits cfg (parserBit cfg p b).1 l).2)

theorem parserBits_append (cfg : Cfg) : ∀ (l l' : List Bit) (p : Parser),
    parserBits cfg p (l ++ l') =
      ((parserBits cfg (parserBits cfg p l).1 l').1,
        (parserBits cfg p l).2 ++ (parserBits cfg (parserBits cfg p l).1 l').2)
  | [], _, _ => rfl
  | b :: l, l', p => by simp [parserBits, parserBits_append cfg l l']

@[simp] theorem parserBits_length (cfg : Cfg) : ∀ (l : List Bit) (p : Parser), (parserBits cfg p l).2.length = l.length
  | [], _ => rfl
  | b :: l, p => by simp [parserBits, parserBits_length cfg l]

/-- The machine after a list of bits, in terms of its Parser (the fold that `State.feedBits` is). -/
theorem foldl_feedBit : ∀ (l : List Bit) (s : State),
    (l.foldl State.feedBit s).cfg = s.cfg ∧
    (l.foldl State.feedBit s).thr = s.thr ∧
    (l.foldl State.feedBit s).inputs = s.inputs ∧
    (l.foldl State.feedBit s).parser = (parserBits s.cfg s.parser l).1 ∧
    (l.foldl State.feedBit s).trace = s.trace ++ (parserBits s.cfg s.parser l).2
  | [], s => by simp [parserBits]
  | b :: l, s => by
    obtain ⟨h1, h2, h3, h4, h5⟩ := foldl_feedBit l (s.feedBit b)
    simp [h1, h2, h3, h4, h5, parserBits]

/-- The response outputs after a list of bits: the last response, or those of before when there was no bit. -/
theorem foldl_feedBit_rsp : ∀ (l : List Bit) (s : State),
    (l.foldl State.feedBit s).rspValid = (s.rspValid || !l.isEmpty) ∧
    (l.foldl State.feedBit s).rsp = (parserBits s.cfg s.parser l).2.getLastD s.rsp
  | [], s => by simp [parserBits]
  | b :: l, s => by
    obtain ⟨h1, h2⟩ := foldl_feedBit_rsp l (s.feedBit b)
    refine ⟨by simp [h1], ?_⟩
    rw [List.foldl_cons, h2, parserBits, List.getLastD_cons]
    rfl

/-- What the host will present does not matter to a bit. -/
theorem State.feedBit_withInputs (s : State) (i : List HostInput) (b : Bit) :
    (s.withInputs i).feedBit b = (s.feedBit b).withInputs i := rfl

/-- The response outputs of before do not matter to a bit. -/
theorem State.feedBit_idle (s : State) (b : Bit) : s.idle.feedBit b = s.feedBit b := rfl

theorem State.feedBits_cons (s : State) (b : Bit) (l : List Bit) :
    s.feedBits (b :: l) = l.foldl State.feedBit (s.feedBit b) := rfl

/-- The machine after `State.feedBits`, field by field. -/
theorem State.feedBits_spec (s : State) (l : List Bit) :
    (s.feedBits l).cfg = s.cfg ∧ (s.feedBits l).thr = s.thr ∧ (s.feedBits l).inputs = s.inputs ∧
    (s.feedBits l).parser = (parserBits s.cfg s.parser l).1 ∧
    (s.feedBits l).trace = s.trace ++ (parserBits s.cfg s.parser l).2 ∧
    (s.feedBits l).rspValid = !l.isEmpty ∧
    (s.feedBits l).rsp = (parserBits s.cfg s.parser l).2.getLastD {} := by
  obtain ⟨a, b, c, d, e⟩ := foldl_feedBit l s.idle
  obtain ⟨f, g⟩ := foldl_feedBit_rsp l s.idle
  exact ⟨a, b, c, d, e, f, g⟩

/-- A property of every response of one bit holds of every response of a list of bits. -/
theorem parserBits_forall {P : Rsp → Prop} (cfg : Cfg) (h : ∀ p b, P (parserBit cfg p b).2) :
    ∀ (l : List Bit) (p : Parser), ∀ r ∈ (parserBits cfg p l).2, P r
  | [], p => by simp [parserBits]
  | b :: l, p => by
    simp only [parserBits, List.mem_cons]
    rintro r (rfl | hr)
    · exact h _ _
    · exact parserBits_forall cfg h l _ r hr

/-- Bits given to a machine that holds a message. -/
theorem parserBits_processing (cfg : Cfg) : ∀ (l : List Bit) seq msg,
    parserBits cfg (.processing seq msg) l = (.processing seq msg, List.replicate l.length .ignoring)
  | [], _, _ => rfl
  | b :: l, seq, msg => by
    simp only [parserBits, parserBit, parserBits_processing cfg l, List.length_cons, List.replicate_succ]

/-- A run of `Hi` that does not fill the BitRun. -/
theorem parserBits_hi (cfg : Cfg) (seq : List MorseSymbol) : ∀ k run, run.length + k < cfg.bitrunCap →
    parserBits cfg (.listening run seq) (List.replicate k .hi) =
      (.listening (run ++ List.replicate k .hi) seq, List.replicate k ({} : Rsp))
  | 0, run, _ => by simp [parserBits]
  | k + 1, run, h => by
    have hb : parserBit cfg (.listening run seq) .hi = (.listening (run ++ [.hi]) seq, {}) :=
      bitHi_room (by simp; omega)
    have ih := parserBits_hi cfg seq k (run ++ [Bit.hi]) (by simp; omega)
    rw [List.replicate_succ, parserBits, hb]
    simp only
    rw [ih]
    simp [List.replicate_succ]

/-- The bits of one symbol at a symbol boundary: nothing until the last, which is resolved. -/
theorem parserBits_symbol (hv : cfg.Valid) (seq : List MorseSymbol) (y : MorseSymbol) :
    parserBits cfg (.listening [] seq) (symbolToBits cfg y) =
      ((bitLo cfg (symbolToBits cfg y) seq).1,
        List.replicate (cfg.len y - 1) ({} : Rsp) ++ [(bitLo cfg (symbolToBits cfg y) seq).2]) := by
  have h1 := hv.len_pos y
  have h2 := hv.len_le y
  rw [symbolToBits, parserBits_append, parserBits_hi cfg seq _ [] (by simp; omega)]
  simp [parserBits, parserBit, bitListening]

/-- A waiting machine fed a stream on which the synchronizer does not lock. -/
theorem parserBits_waiting (cfg : Cfg) : ∀ (l : List Bit) win, (∀ r ∈ (fsStream cfg win l).2, r = false) →
    parserBits cfg (.waitingForStart win) l =
      (.waitingForStart (fsStream cfg win l).1, List.replicate l.length ({} : Rsp))
  | [], win, _ => rfl
  | b :: l, win, h => by
    simp only [fsStream, List.mem_cons, forall_eq_or_imp] at h
    have : parserBit cfg (.waitingForStart win) b = (.waitingForStart (fsPush cfg win b).1, {}) := by
      simp [parserBit, bitWaiting, h.1]
    simp only [parserBits, this, parserBits_waiting cfg l _ h.2, fsStream, List.length_cons, List.replicate_succ]

end Sys2Proof.Machine
end

