-- ==== Sys2Proof/Laws/Exec.lean ====
section
/-! SUPPORT. What an instruction does, in ten cases: the nine operations, and the line-code rows as the bits of their
expansion. Later proofs cite `exec_cases` rather than go through the 56 arms. -/

namespace Sys2Proof.Machine

/-- A line-code row is the bits of its expansion (30_encoding.md R92); the other instructions have none. -/
theorem exec_cases (i : Instr) (s : State) :
    (∃ b, i = .bit b ∧ exec i s = .next (s.feedBit b)) ∨
    (∃ v, i = .sample v ∧ exec i s = .next (s.feedSample v)) ∨
    (i = .new ∧ exec i s = .next ((s.withParser .fresh).respond {})) ∨
    (∃ v, i = .setthr v ∧ exec i s = .next ((s.withThr v).respond {})) ∨
    (∃ k, i = .rdmsg k ∧ exec i s = .next (s.respond (Rsp.withData {} (charData (msgRead s.parser k))))) ∨
    (∃ c, i = .enc c ∧ exec i s = .next (s.respond (encRsp s.cfg c))) ∨
    (∃ q, i = .dec q ∧ exec i s = .next (s.respond (decRsp s.cfg q))) ∨
    (∃ y, i = .s2b y ∧ exec i s = .next (s.respond (Rsp.withData {} (s2bData (symbolToBits s.cfg y))))) ∨
    (∃ r, i = .b2s r ∧ exec i s = .next (s.respond (b2sRsp s.cfg r))) ∨
    (∃ bits, expansion s.cfg i = some bits ∧ exec i s = .next (s.feedBits bits)) := by
  cases i
  case bit b => exact .inl ⟨b, rfl, rfl⟩
  case sample v => exact .inr (.inl ⟨v, rfl, rfl⟩)
  case new => exact .inr (.inr (.inl ⟨rfl, rfl⟩))
  case setthr v => exact .inr (.inr (.inr (.inl ⟨v, rfl, rfl⟩)))
  case rdmsg k => exact .inr (.inr (.inr (.inr (.inl ⟨k, rfl, rfl⟩))))
  case enc c => exact .inr (.inr (.inr (.inr (.inr (.inl ⟨c, rfl, rfl⟩)))))
  case dec q => exact .inr (.inr (.inr (.inr (.inr (.inr (.inl ⟨q, rfl, rfl⟩))))))
  case s2b y => exact .inr (.inr (.inr (.inr (.inr (.inr (.inr (.inl ⟨y, rfl, rfl⟩)))))))
  case b2s r => exact .inr (.inr (.inr (.inr (.inr (.inr (.inr (.inr (.inl ⟨r, rfl, rfl⟩))))))))
  all_goals exact .inr (.inr (.inr (.inr (.inr (.inr (.inr (.inr (.inr ⟨_, rfl, rfl⟩))))))))

/-- A line-code row runs as the bits of its expansion. -/
theorem exec_expansion {s : State} {i : Instr} {bits : List Bit} (h : expansion s.cfg i = some bits) :
    exec i s = .next (s.feedBits bits) := by
  obtain ⟨b, rfl, -⟩ | ⟨v, rfl, -⟩ | ⟨rfl, -⟩ | ⟨v, rfl, -⟩ | ⟨k, rfl, -⟩ | ⟨c, rfl, -⟩ | ⟨q, rfl, -⟩ | ⟨y, rfl, -⟩ |
    ⟨r, rfl, -⟩ | ⟨bits', h', he⟩ := exec_cases i s
  case inr.inr.inr.inr.inr.inr.inr.inr.inr =>
    rw [h] at h'; cases h'; exact he
  all_goals exact absurd h (by simp [expansion, Instr.symbol?, Instr.charCode?])

/-- Which instructions have an expansion. -/
theorem expansion_symbol {cfg : Cfg} {i : Instr} {y : MorseSymbol} (h : i.symbol? = some y) :
    expansion cfg i = some (symbolToBits cfg y) := by simp only [expansion, h]

theorem expansion_char {cfg : Cfg} {i : Instr} {c : Byte} (h : i.charCode? = some c) :
    expansion cfg i = some (charBits cfg c) := by
  cases i <;> cases h <;> rfl

theorem expansion_isSome {cfg : Cfg} {i : Instr} {bits : List Bit} (h : expansion cfg i = some bits) :
    (∃ y, i.symbol? = some y ∧ bits = symbolToBits cfg y) ∨
    (∃ c, i.charCode? = some c ∧ bits = charBits cfg c) ∨ (i = .start ∧ bits = cfg.sp) := by
  unfold expansion at h
  split at h
  · rename_i hy; cases h; exact .inl ⟨_, hy, rfl⟩
  · rename_i hc; cases h; exact .inr (.inl ⟨_, hc, rfl⟩)
  · split at h
    · cases h; exact .inr (.inr ⟨‹_›, rfl⟩)
    · cases h

/-- `exec_cases` read from a known next state. -/
theorem exec_next_cases {s t : State} {i : Instr} (h : exec i s = .next t) :
    (∃ b, i = .bit b ∧ t = s.feedBit b) ∨
    (∃ v, i = .sample v ∧ t = s.feedSample v) ∨
    (i = .new ∧ t = ((s.withParser .fresh).respond {})) ∨
    (∃ v, i = .setthr v ∧ t = ((s.withThr v).respond {})) ∨
    (∃ k, i = .rdmsg k ∧ t = (s.respond (Rsp.withData {} (charData (msgRead s.parser k))))) ∨
    (∃ c, i = .enc c ∧ t = (s.respond (encRsp s.cfg c))) ∨
    (∃ q, i = .dec q ∧ t = (s.respond (decRsp s.cfg q))) ∨
    (∃ y, i = .s2b y ∧ t = (s.respond (Rsp.withData {} (s2bData (symbolToBits s.cfg y))))) ∨
    (∃ r, i = .b2s r ∧ t = (s.respond (b2sRsp s.cfg r))) ∨
    (∃ bits, expansion s.cfg i = some bits ∧ t = (s.feedBits bits)) := by
  obtain ⟨b, rfl, h'⟩ | ⟨v, rfl, h'⟩ | ⟨rfl, h'⟩ | ⟨v, rfl, h'⟩ | ⟨k, rfl, h'⟩ | ⟨c, rfl, h'⟩ | ⟨q, rfl, h'⟩ | ⟨y, rfl, h'⟩ |
    ⟨r, rfl, h'⟩ | ⟨bits, hb, h'⟩ := exec_cases i s <;> rw [h'] at h <;> cases h
  · exact .inl ⟨_, rfl, rfl⟩
  · exact .inr (.inl ⟨_, rfl, rfl⟩)
  · exact .inr (.inr (.inl ⟨rfl, rfl⟩))
  · exact .inr (.inr (.inr (.inl ⟨_, rfl, rfl⟩)))
  · exact .inr (.inr (.inr (.inr (.inl ⟨_, rfl, rfl⟩))))
  · exact .inr (.inr (.inr (.inr (.inr (.inl ⟨_, rfl, rfl⟩)))))
  · exact .inr (.inr (.inr (.inr (.inr (.inr (.inl ⟨_, rfl, rfl⟩))))))
  · exact .inr (.inr (.inr (.inr (.inr (.inr (.inr (.inl ⟨_, rfl, rfl⟩)))))))
  · exact .inr (.inr (.inr (.inr (.inr (.inr (.inr (.inr (.inl ⟨_, rfl, rfl⟩))))))))
  · exact .inr (.inr (.inr (.inr (.inr (.inr (.inr (.inr (.inr ⟨_, hb, rfl⟩))))))))

/-- Everything one edge can do: nothing more to present, `rst`, no command, an instruction, a word that is none. -/
theorem step_cases (s : State) :
    (s.inputs = [] ∧ step s = .next s.idle) ∨
    ∃ i rest, s.inputs = i :: rest ∧
      ((i.rst = true ∧ step s = .next (s.withInputs rest).resetCore) ∨
       (i.rst = false ∧ i.cmd = none ∧ step s = .next (s.withInputs rest).idle) ∨
       (∃ w ins, i.rst = false ∧ i.cmd = some w ∧ decode s.cfg w = .ok ins ∧ step s = exec ins (s.withInputs rest)) ∨
       (∃ w e, i.rst = false ∧ i.cmd = some w ∧ decode s.cfg w = .err e ∧
         step s = .next ((s.withInputs rest).undecoded w))) := by
  cases hi : s.inputs with
  | nil => left; simp [step, hi]
  | cons i rest =>
    right; refine ⟨i, rest, rfl, ?_⟩
    cases hr : i.rst with
    | true => left; simp [step, hi, hr]
    | false =>
      right
      cases hc : i.cmd with
      | none => left; simp [step, hi, hr, hc]
      | some w =>
        right
        cases hd : decode s.cfg w with
        | ok ins => left; exact ⟨w, ins, rfl, rfl, hd, by simp [step, hi, hr, hc, hd]⟩
        | err e => right; exact ⟨w, e, rfl, rfl, hd, by simp [step, hi, hr, hc, hd]⟩

/-! ### Scripts of bits -/

/-- A BIT command decodes to its instruction (30_encoding.md R74). -/
theorem decode_encode_bit (cfg : Cfg) (b : Bit) : decode cfg (encode (.bit b)) = .ok (.bit b) := by cases b <;> rfl

/-- One edge that presents a BIT command. -/
theorem step_bit (s : State) (b : Bit) (rest : List HostInput) :
    step (s.withInputs (.present (encode (.bit b)) :: rest)) = .next ((s.withInputs rest).feedBit b) := by
  simp only [step, State.withInputs_inputs, HostInput.present, decode_encode_bit]
  rfl

/-- A run whose first step is known. -/
theorem run_succ {M : Host.Core} {k : Nat} {s s' : M.State} (h : M.step s = .next s') :
    M.run (k + 1) s = M.run k s' := by
  show (match M.step s with | .next s' => M.run k s' | .fault r => .fault r | .refused r => .refused r) = _
  rw [h]

/-- A script of BIT commands runs as the fold of the bits (30_encoding.md R91). -/
theorem run_scriptBits : ∀ (l : List Bit) (s : State) (rest : List HostInput),
    Sys2Proof.core.run l.length (s.withInputs (scriptBits l ++ rest)) =
      .next ((l.foldl State.feedBit s).withInputs rest)
  | [], s, rest => rfl
  | b :: l, s, rest => by
    exact (run_succ (M := Sys2Proof.core) (s := s.withInputs (scriptBits (b :: l) ++ rest))
      (s' := (s.feedBit b).withInputs (scriptBits l ++ rest)) (step_bit s b (scriptBits l ++ rest))).trans
      (run_scriptBits l (s.feedBit b) rest)

end Sys2Proof.Machine
end

