-- ==== Sys2Proof/Laws/Frame.lean ====
section
/-! SUPPORT. What `build_frame` answers (44_frame_format.md R181), said once over a prefix of its text. -/

namespace Sys2Proof.Machine

/-- Symbols are appended exactly when their bits fit. -/
theorem frameSymbols_spec (cfg : Cfg) : ∀ (q : List MorseSymbol) (out : List Bit), out.length ≤ cfg.frameCap →
    frameSymbols cfg out q =
      if (out ++ q.flatMap (symbolToBits cfg)).length ≤ cfg.frameCap then .ok (out ++ q.flatMap (symbolToBits cfg))
      else .err .fullBuffer
  | [], out, h => by simp [frameSymbols, h]
  | y :: q, out, h => by
    by_cases hc : out.length + (symbolToBits cfg y).length > cfg.frameCap
    · rw [frameSymbols, frameSymbol, if_pos hc, if_neg (by simp; omega)]
    · rw [frameSymbols, frameSymbol, if_neg hc]
      simp only
      rw [frameSymbols_spec cfg q _ (by simp; omega)]
      simp

/-- A prefix of supported characters: its bits are appended and the rest goes on, or they do not fit and the rest does
not matter. -/
theorem frameChars_append (cfg : Cfg) (rest : List Byte) : ∀ (pre : List Byte) (out : List Bit),
    out.length ≤ cfg.frameCap → (∀ c ∈ pre, ∃ q, stEncode cfg c = .ok q) →
    frameChars cfg out (pre ++ rest) =
      if (out ++ pre.flatMap (charBits cfg)).length ≤ cfg.frameCap
      then frameChars cfg (out ++ pre.flatMap (charBits cfg)) rest else .err .fullBuffer
  | [], out, h, _ => by simp [h]
  | c :: pre, out, h, hs => by
    obtain ⟨q, hq⟩ := hs c List.mem_cons_self
    have hcb : (q ++ [MorseSymbol.charBreak]).flatMap (symbolToBits cfg) = charBits cfg c := by simp [charBits, hq]
    rw [List.cons_append, frameChars, hq]
    simp only
    rw [frameSymbols_spec cfg _ _ h, hcb]
    by_cases hc : (out ++ charBits cfg c).length ≤ cfg.frameCap
    · rw [if_pos hc]
      simp only
      rw [frameChars_append cfg rest pre _ hc fun d hd => hs d (List.mem_cons_of_mem _ hd)]
      simp
    · rw [if_neg hc, if_neg (by simp at hc ⊢; omega)]

/-- At an unsupported character the loop ends with the error of the Symbol Table (40_symbol_table.md R103). -/
theorem frameChars_unsupported {cfg : Cfg} {c : Byte} {e : ErrorKind} (h : stEncode cfg c = .err e) (out : List Bit)
    (text : List Byte) : frameChars cfg out (c :: text) = .err e := by
  rw [frameChars, h]

/-- At the end of the text the `LineBreak` is appended, if it fits. -/
theorem frameChars_nil (cfg : Cfg) (out : List Bit) :
    frameChars cfg out [] =
      if (out ++ symbolToBits cfg .lineBreak).length ≤ cfg.frameCap then .ok (out ++ symbolToBits cfg .lineBreak)
      else .err .fullBuffer := by
  by_cases h : out.length + (symbolToBits cfg .lineBreak).length > cfg.frameCap
  · rw [frameChars, frameSymbol, if_pos h, if_neg (by simp; omega)]
  · rw [frameChars, frameSymbol, if_neg h, if_pos (by simp; omega)]

end Sys2Proof.Machine
end

