-- ==== Sys2Proof/Laws/Memory.lean ====
section
/-! SUPPORT. Every operation keeps the buffers within their capacities (20_memory.md R51, R52), and reset has them so. -/

namespace Sys2Proof.Machine

theorem Memory.wf_reset : Memory.wf State.reset = true := by decide

/-- The part of `Memory.wf` that depends on the Parser. -/
theorem Memory.wf_iff (s : State) : Memory.wf s = true ↔
    s.parser.seq.length ≤ s.cfg.symseqCap ∧ s.parser.msg.length ≤ s.cfg.msgCap := by
  simp [Memory.wf]

theorem parserBit_wf {cfg : Cfg} {p : Parser} (b : Bit)
    (h : p.seq.length ≤ cfg.symseqCap ∧ p.msg.length ≤ cfg.msgCap) :
    (parserBit cfg p b).1.seq.length ≤ cfg.symseqCap ∧ (parserBit cfg p b).1.msg.length ≤ cfg.msgCap := by
  obtain ⟨win, rfl, -, he⟩ | ⟨win, rfl, -, he⟩ | ⟨run, seq, rfl, -, -, he⟩ | ⟨run, seq, rfl, -, -, he⟩ |
    ⟨run, seq, rfl, -, -, he⟩ | ⟨run, seq, y, rfl, -, -, -, he⟩ | ⟨run, seq, y, rfl, -, -, hl, -, he⟩ |
    ⟨run, seq, m, rfl, -, -, hl, hp, he⟩ | ⟨run, seq, e, rfl, -, -, -, -, -, he⟩ | ⟨seq, msg, rfl, he⟩ :=
    parserBit_cases cfg p b <;> rw [he]
  case inr.inr.inr.inr.inr.inr.inl =>
    obtain ⟨h1, -⟩ := h
    simp only [Parser.seq] at h1
    exact ⟨by simp [Parser.seq]; omega, Nat.zero_le _⟩
  case inr.inr.inr.inr.inr.inr.inr.inl =>
    obtain ⟨h1, -⟩ := h
    simp only [Parser.seq] at h1
    exact ⟨by simp [Parser.seq]; omega, process_length hp⟩
  case inr.inr.inl => exact h
  case inr.inr.inr.inr.inr.inr.inr.inr.inr => exact h
  all_goals exact ⟨Nat.zero_le _, Nat.zero_le _⟩

theorem parserBits_wf {cfg : Cfg} : ∀ (l : List Bit) {p : Parser},
    p.seq.length ≤ cfg.symseqCap ∧ p.msg.length ≤ cfg.msgCap →
    (parserBits cfg p l).1.seq.length ≤ cfg.symseqCap ∧ (parserBits cfg p l).1.msg.length ≤ cfg.msgCap
  | [], _, h => h
  | b :: l, _, h => parserBits_wf l (parserBit_wf b h)

theorem State.feedBits_wf {s : State} (l : List Bit) (h : Memory.wf s = true) : Memory.wf (s.feedBits l) = true := by
  obtain ⟨h1, -, -, h4, -⟩ := foldl_feedBit l s.idle
  rw [Memory.wf_iff] at h ⊢
  rw [State.feedBits, h1, h4]
  exact parserBits_wf l h

/-- Every instruction keeps `Memory.wf`. -/
theorem exec_wf {s t : State} {i : Instr} (hs : Memory.wf s = true) (h : exec i s = .next t) : Memory.wf t = true := by
  obtain ⟨b, rfl, he⟩ | ⟨v, rfl, he⟩ | ⟨rfl, he⟩ | ⟨v, rfl, he⟩ | ⟨k, rfl, he⟩ | ⟨c, rfl, he⟩ | ⟨q, rfl, he⟩ |
    ⟨y, rfl, he⟩ | ⟨r, rfl, he⟩ | ⟨bits, -, he⟩ := exec_cases i s <;> rw [he] at h <;> cases h
  case inl => exact (Memory.wf_iff _).mpr (parserBit_wf b ((Memory.wf_iff s).mp hs))
  case inr.inl => exact (Memory.wf_iff _).mpr (parserBit_wf _ ((Memory.wf_iff s).mp hs))
  case inr.inr.inl => exact (Memory.wf_iff _).mpr ⟨Nat.zero_le _, Nat.zero_le _⟩
  case inr.inr.inr.inr.inr.inr.inr.inr.inr => exact State.feedBits_wf bits hs
  all_goals exact hs

/-- So does an idle edge, a reset, and a word that spells no instruction. -/
theorem idle_wf {s : State} (hs : Memory.wf s = true) : Memory.wf s.idle = true := hs

theorem resetCore_wf (s : State) : Memory.wf s.resetCore = true :=
  (Memory.wf_iff _).mpr ⟨Nat.zero_le _, Nat.zero_le _⟩

theorem undecoded_wf {s : State} (w : HostWord) (hs : Memory.wf s = true) : Memory.wf (s.undecoded w) = true := by
  cases w with
  | op w => exact hs
  | bitrun bits => exact State.feedBits_wf bits hs
  | morse bits => exact State.feedBits_wf bits hs

end Sys2Proof.Machine
end

