-- ==== Sys2Proof/Laws/PerInstr.lean ====
section
/-! SUPPORT. The family of per-instruction laws `EncodeFormat`: the word of every instruction has the format of its row
of spec/opcode_table.json. -/

namespace Sys2Proof.Laws.EncodeFormat

/-- The operation code of a row of format `op` (30_encoding.md R72); none for a line-code row. -/
def opCode? : Instr → Option Nat
  | .bit _ => some 0x1
  | .sample _ => some 0x2
  | .new => some 0x3
  | .setthr _ => some 0x4
  | .rdmsg _ => some 0x5
  | .enc _ => some 0x8
  | .dec _ => some 0x9
  | .s2b _ => some 0xA
  | .b2s _ => some 0xB
  | _ => none

/-- A word of the line code: not empty, at most 16 bits, and closed by the `Lo` that ends its last run
(30_encoding.md R82). -/
abbrev LineWord (bits : List Bit) : Prop := bits.length ≤ 16 ∧ bits.getLast? = some .lo

/-- What the encoding of a well-formed instruction looks like: a command word with the operation code of its row, or
a line-code word in the format of its row. -/
def Statement (i : Instr) : Prop :=
  ∀ cfg : Cfg, i.WellFormed cfg →
    match opCode? i with
    | some c => ∃ w, encode i = .op w ∧ field w 31 28 = c
    | none => ∃ bits, (encode i = if i.charCode?.isSome then .morse bits else .bitrun bits) ∧ LineWord bits

/-- The operation code of a word made with `opWord`. -/
theorem opWord_code {c o : Nat} (hc : c < 16) (ho : o < 2 ^ 28) :
    ∃ w, opWord c o = .op w ∧ field w 31 28 = c := ⟨_, rfl, field_opWord_code hc ho⟩

theorem bit (b : Bit) : Statement (.bit b) := fun _ _ => opWord_code (by decide) (Nat.lt_trans (bitCode_lt b) (by decide))
theorem sample (v : Sample) : Statement (.sample v) := fun _ _ => opWord_code (by decide) v.isLt
theorem new : Statement (.new) := fun _ _ => opWord_code (by decide) (by decide)
theorem setthr (v : Sample) : Statement (.setthr v) := fun _ _ => opWord_code (by decide) v.isLt
theorem rdmsg (i : Byte) : Statement (.rdmsg i) := fun _ _ => opWord_code (by decide) (Nat.lt_trans i.isLt (by decide))
theorem enc (c : Byte) : Statement (.enc c) := fun _ _ => opWord_code (by decide) (Nat.lt_trans c.isLt (by decide))
theorem dec (q : List MorseSymbol) : Statement (.dec q) := fun _ h => by
  have hl : q.length ≤ 7 := of_decide_eq_true h
  have hp : packSymbols q < 2 ^ 21 :=
    Nat.lt_of_lt_of_le (packSymbols_lt q) (by simpa using Nat.pow_le_pow_right (n := 8) (by decide) hl)
  exact opWord_code (by decide) (by omega)
theorem s2b (s : MorseSymbol) : Statement (.s2b s) := fun _ _ => opWord_code (by decide) (Nat.lt_of_le_of_lt (symbolCode_le s) (by decide))
theorem b2s (r : List Bit) : Statement (.b2s r) := fun _ h => by
  have hl : r.length ≤ 8 := of_decide_eq_true h
  have hp : packBits r < 2 ^ 8 := Nat.lt_of_lt_of_le (packBits_lt r) (Nat.pow_le_pow_right (n := 2) (by decide) hl)
  exact opWord_code (by decide) (by omega)
theorem symDot : Statement .symDot := fun _ _ => ⟨_, rfl, by decide⟩
theorem symDash : Statement .symDash := fun _ _ => ⟨_, rfl, by decide⟩
theorem symCharBreak : Statement .symCharBreak := fun _ _ => ⟨_, rfl, by decide⟩
theorem symWordBreak : Statement .symWordBreak := fun _ _ => ⟨_, rfl, by decide⟩
theorem symLineBreak : Statement .symLineBreak := fun _ _ => ⟨_, rfl, by decide⟩
theorem start : Statement .start := fun _ _ => ⟨_, rfl, by decide⟩
theorem charA : Statement .charA := fun _ _ => ⟨_, rfl, by decide⟩
theorem charB : Statement .charB := fun _ _ => ⟨_, rfl, by decide⟩
theorem charC : Statement .charC := fun _ _ => ⟨_, rfl, by decide⟩
theorem charD : Statement .charD := fun _ _ => ⟨_, rfl, by decide⟩
theorem charE : Statement .charE := fun _ _ => ⟨_, rfl, by decide⟩
theorem charF : Statement .charF := fun _ _ => ⟨_, rfl, by decide⟩
theorem charG : Statement .charG := fun _ _ => ⟨_, rfl, by decide⟩
theorem charH : Statement .charH := fun _ _ => ⟨_, rfl, by decide⟩
theorem charI : Statement .charI := fun _ _ => ⟨_, rfl, by decide⟩
theorem charJ : Statement .charJ := fun _ _ => ⟨_, rfl, by decide⟩
theorem charK : Statement .charK := fun _ _ => ⟨_, rfl, by decide⟩
theorem charL : Statement .charL := fun _ _ => ⟨_, rfl, by decide⟩
theorem charM : Statement .charM := fun _ _ => ⟨_, rfl, by decide⟩
theorem charN : Statement .charN := fun _ _ => ⟨_, rfl, by decide⟩
theorem charO : Statement .charO := fun _ _ => ⟨_, rfl, by decide⟩
theorem charP : Statement .charP := fun _ _ => ⟨_, rfl, by decide⟩
theorem charQ : Statement .charQ := fun _ _ => ⟨_, rfl, by decide⟩
theorem charR : Statement .charR := fun _ _ => ⟨_, rfl, by decide⟩
theorem charS : Statement .charS := fun _ _ => ⟨_, rfl, by decide⟩
theorem charT : Statement .charT := fun _ _ => ⟨_, rfl, by decide⟩
theorem charU : Statement .charU := fun _ _ => ⟨_, rfl, by decide⟩
theorem charV : Statement .charV := fun _ _ => ⟨_, rfl, by decide⟩
theorem charW : Statement .charW := fun _ _ => ⟨_, rfl, by decide⟩
theorem charX : Statement .charX := fun _ _ => ⟨_, rfl, by decide⟩
theorem charY : Statement .charY := fun _ _ => ⟨_, rfl, by decide⟩
theorem charZ : Statement .charZ := fun _ _ => ⟨_, rfl, by decide⟩
theorem char0 : Statement .char0 := fun _ _ => ⟨_, rfl, by decide⟩
theorem char1 : Statement .char1 := fun _ _ => ⟨_, rfl, by decide⟩
theorem char2 : Statement .char2 := fun _ _ => ⟨_, rfl, by decide⟩
theorem char3 : Statement .char3 := fun _ _ => ⟨_, rfl, by decide⟩
theorem char4 : Statement .char4 := fun _ _ => ⟨_, rfl, by decide⟩
theorem char5 : Statement .char5 := fun _ _ => ⟨_, rfl, by decide⟩
theorem char6 : Statement .char6 := fun _ _ => ⟨_, rfl, by decide⟩
theorem char7 : Statement .char7 := fun _ _ => ⟨_, rfl, by decide⟩
theorem char8 : Statement .char8 := fun _ _ => ⟨_, rfl, by decide⟩
theorem char9 : Statement .char9 := fun _ _ => ⟨_, rfl, by decide⟩
theorem charSpace : Statement .charSpace := fun _ _ => ⟨_, rfl, by decide⟩
theorem charLF : Statement .charLF := fun _ _ => ⟨_, rfl, by decide⟩
theorem charPeriod : Statement .charPeriod := fun _ _ => ⟨_, rfl, by decide⟩
theorem charComma : Statement .charComma := fun _ _ => ⟨_, rfl, by decide⟩
theorem charQuestion : Statement .charQuestion := fun _ _ => ⟨_, rfl, by decide⟩

end Sys2Proof.Laws.EncodeFormat
end

