-- ==== Sys2Proof/Tests/Slice0.lean ====
section
/-! SUPPORT. Tests of the model against spec/: the worked examples of the rules and the vectors of 95_test_vectors.md, and
for every obligation with hypotheses a state and operands that meet all of them. Nothing here is a statement for the
provers. -/

namespace Sys2Proof.Tests

open Sys2Proof Sys2Proof.Machine

/-! ### Helpers -/

/-- Bits written as the spec writes them, first bit left (30_encoding.md R91). -/
def B (l : List Nat) : List Bit := l.map fun n => if n = 1 then .hi else .lo

/-- Symbols by their codes (30_encoding.md R75). -/
def Q (l : List Nat) : List MorseSymbol := l.map fun n =>
  match n with
  | 0 => .dot
  | 1 => .dash
  | 2 => .charBreak
  | 3 => .wordBreak
  | _ => .lineBreak

/-- `n` times `Hi`. -/
def his (n : Nat) : List Bit := List.replicate n .hi

/-- The reset state with another Parser. -/
def withP (p : Parser) : State := State.reset.withParser p

/-- The reset state with another Parser and configuration. -/
def withCfg (c : Cfg) (p : Parser) : State := { withP p with cfg := c }

/-- A configuration with samples of 8 bits. -/
def byteCfg : Cfg := { defaultCfg with sampleW := 8, thrReset := 0x80#28 }

/-- `ListeningForMessage` at a symbol boundary with the symbols of these codes. -/
def listening (l : List Nat) : State := withP (.listening [] (Q l))

/-- A machine that holds the message "sos" (95_test_vectors.md S5). -/
def holdingSos : State := withP (.processing (Q [0, 0, 0, 2, 1, 1, 1, 2, 0, 0, 0, 2, 4]) [0x73#8, 0x6F#8, 0x73#8])

/-- The next state, if the step answers one. -/
def out? (o : Host.Outcome State Fault Refusal) : Option State :=
  match o with
  | .next s => some s
  | _ => none

/-- The response presented after one step on a command word. -/
def rspOf (s : State) (w : Nat) : Option Rsp := (out? (step (s.withFetchWord 32 w))).map State.rsp

/-- The Parser after one step on a command word. -/
def parserOf (s : State) (w : Nat) : Option Parser := (out? (step (s.withFetchWord 32 w))).map State.parser

/-! ### WellFormed -/

/-- 30_encoding.md R71: a DEC operand has at most 7 symbols. -/
theorem test_wf_dec : ¬ (Instr.dec (Q [0, 0, 0, 0, 0, 0, 0, 0])).WellFormed defaultCfg ∧ (Instr.dec (Q [0, 0, 0, 0, 0, 0, 0])).WellFormed defaultCfg := by
  decide

/-- 30_encoding.md R71: a B2S operand has at most 8 bits. -/
theorem test_wf_b2s : ¬ (Instr.b2s (his 9)).WellFormed defaultCfg ∧ (Instr.b2s (his 8)).WellFormed defaultCfg := by decide

/-- 30_encoding.md R71: a sample and a threshold are below `2^SAMPLE_W`. -/
theorem test_wf_sample : ¬ (Instr.sample 0x1000#28).WellFormed defaultCfg ∧ (Instr.sample 0xFFF#28).WellFormed defaultCfg ∧
    ¬ (Instr.setthr 0x100#28).WellFormed byteCfg ∧ (Instr.setthr 0xFF#28).WellFormed byteCfg := by decide

/-! ### Decoding -/

/-- One word of each operation, written out from 30_encoding.md R73 and R74 to R77. -/
theorem test_decode_ops :
    decode defaultCfg (.op 0b00010000000000000000000000000000#32) = .ok (.bit .lo) ∧
    decode defaultCfg (.op 0b00010000000000000000000000000001#32) = .ok (.bit .hi) ∧
    decode defaultCfg (.op 0b00100000000000000000100000000001#32) = .ok (.sample 0x801#28) ∧
    decode defaultCfg (.op 0b00110000000000000000000000000000#32) = .ok .new ∧
    decode defaultCfg (.op 0b01000000000000000000001111111111#32) = .ok (.setthr 0x3FF#28) ∧
    decode defaultCfg (.op 0b01010000000000000000000011111111#32) = .ok (.rdmsg 255#8) ∧
    decode defaultCfg (.op 0b10000000000000000000000001100001#32) = .ok (.enc 0x61#8) ∧
    decode defaultCfg (.op 0b10010000101000000001001001001000#32) = .ok (.dec (Q [0, 1, 1, 1, 1])) ∧
    decode defaultCfg (.op 0b10100000000000000000000000000100#32) = .ok (.s2b .lineBreak) ∧
    decode defaultCfg (.op 0b10110000000000000000001100000011#32) = .ok (.b2s (B [1, 1, 0])) := by decide

/-- Bits and slots at or beyond the length are ignored (30_encoding.md R77; 95_test_vectors.md 2.2 "junk above"). -/
theorem test_decode_ignored :
    decode defaultCfg (.op 0xB00002FD#32) = .ok (.b2s (B [1, 0])) ∧
    decode defaultCfg (.op 0x90200038#32) = .ok (.dec (Q [0])) := by decide

/-- Reserved words: the examples of 45_host_port_ops.md R194, and one for each other condition of 30_encoding.md R89. -/
theorem test_decode_reserved :
    decode defaultCfg (.op 0x00000000#32) = .err .opcode ∧ decode defaultCfg (.op 0x60000000#32) = .err .opcode ∧
    decode defaultCfg (.op 0x10000002#32) = .err .unassignedBit ∧ decode defaultCfg (.op 0xA0000005#32) = .err .symbolCode ∧
    decode defaultCfg (.op 0xB0000900#32) = .err .runLength ∧ decode defaultCfg (.op 0x90200005#32) = .err .symbolCode ∧
    decode defaultCfg (.op 0xA0000008#32) = .err .unassignedBit ∧ decode defaultCfg (.op 0x80000161#32) = .err .unassignedBit := by decide

/-- At `SAMPLE_W` = 8 the operand is `cmd[7:0]` (43_decoder_state_machine.md R166); a bit above it is unassigned
(log entry 3). -/
theorem test_decode_narrow :
    decode byteCfg (.op 0x200000FF#32) = .ok (.sample 0xFF#28) ∧ decode byteCfg (.op 0x400000FF#32) = .ok (.setthr 0xFF#28) ∧
    decode byteCfg (.op 0x20000100#32) = .err .unassignedBit := by decide

/-- The five symbols and the Start Pattern (30_encoding.md R83, R84). -/
theorem test_decode_bitrun :
    decode defaultCfg (.bitrun (B [1, 0])) = .ok .symDot ∧ decode defaultCfg (.bitrun (B [1, 1, 0])) = .ok .symDash ∧
    decode defaultCfg (.bitrun (B [0])) = .ok .symCharBreak ∧ decode defaultCfg (.bitrun (B [1, 1, 1, 0])) = .ok .symWordBreak ∧
    decode defaultCfg (.bitrun (B [1, 1, 1, 1, 0])) = .ok .symLineBreak ∧
    decode defaultCfg (.bitrun (B [1, 1, 1, 1, 1, 1, 1, 0])) = .ok .start ∧
    decode defaultCfg (.bitrun (B [1, 1, 1, 1, 1, 0])) = .err .noRow := by decide

/-- The letters of 40_symbol_table.md R101: columns "bits", "symbol codes", and the instruction. -/
def letterWords : List (List Nat × List Nat × Instr) := [
   ([1, 0, 1, 1, 0], [0, 1], .charA),
   ([1, 1, 0, 1, 0, 1, 0, 1, 0], [1, 0, 0, 0], .charB),
   ([1, 1, 0, 1, 0, 1, 1, 0, 1, 0], [1, 0, 1, 0], .charC),
   ([1, 1, 0, 1, 0, 1, 0], [1, 0, 0], .charD),
   ([1, 0], [0], .charE),
   ([1, 0, 1, 0, 1, 1, 0, 1, 0], [0, 0, 1, 0], .charF),
   ([1, 1, 0, 1, 1, 0, 1, 0], [1, 1, 0], .charG),
   ([1, 0, 1, 0, 1, 0, 1, 0], [0, 0, 0, 0], .charH),
   ([1, 0, 1, 0], [0, 0], .charI),
   ([1, 0, 1, 1, 0, 1, 1, 0, 1, 1, 0], [0, 1, 1, 1], .charJ),
   ([1, 1, 0, 1, 0, 1, 1, 0], [1, 0, 1], .charK),
   ([1, 0, 1, 1, 0, 1, 0, 1, 0], [0, 1, 0, 0], .charL),
   ([1, 1, 0, 1, 1, 0], [1, 1], .charM),
   ([1, 1, 0, 1, 0], [1, 0], .charN),
   ([1, 1, 0, 1, 1, 0, 1, 1, 0], [1, 1, 1], .charO),
   ([1, 0, 1, 1, 0, 1, 1, 0, 1, 0], [0, 1, 1, 0], .charP),
   ([1, 1, 0, 1, 1, 0, 1, 0, 1, 1, 0], [1, 1, 0, 1], .charQ),
   ([1, 0, 1, 1, 0, 1, 0], [0, 1, 0], .charR),
   ([1, 0, 1, 0, 1, 0], [0, 0, 0], .charS),
   ([1, 1, 0], [1], .charT),
   ([1, 0, 1, 0, 1, 1, 0], [0, 0, 1], .charU),
   ([1, 0, 1, 0, 1, 0, 1, 1, 0], [0, 0, 0, 1], .charV),
   ([1, 0, 1, 1, 0, 1, 1, 0], [0, 1, 1], .charW),
   ([1, 1, 0, 1, 0, 1, 0, 1, 1, 0], [1, 0, 0, 1], .charX),
   ([1, 1, 0, 1, 0, 1, 1, 0, 1, 1, 0], [1, 0, 1, 1], .charY),
   ([1, 1, 0, 1, 1, 0, 1, 0, 1, 0], [1, 1, 0, 0], .charZ)]

/-- The digits of 40_symbol_table.md R101: columns "bits", "symbol codes", and the instruction. -/
def digitWords : List (List Nat × List Nat × Instr) := [
   ([1, 1, 0, 1, 1, 0, 1, 1, 0, 1, 1, 0, 1, 1, 0], [1, 1, 1, 1, 1], .char0),
   ([1, 0, 1, 1, 0, 1, 1, 0, 1, 1, 0, 1, 1, 0], [0, 1, 1, 1, 1], .char1),
   ([1, 0, 1, 0, 1, 1, 0, 1, 1, 0, 1, 1, 0], [0, 0, 1, 1, 1], .char2),
   ([1, 0, 1, 0, 1, 0, 1, 1, 0, 1, 1, 0], [0, 0, 0, 1, 1], .char3),
   ([1, 0, 1, 0, 1, 0, 1, 0, 1, 1, 0], [0, 0, 0, 0, 1], .char4),
   ([1, 0, 1, 0, 1, 0, 1, 0, 1, 0], [0, 0, 0, 0, 0], .char5),
   ([1, 1, 0, 1, 0, 1, 0, 1, 0, 1, 0], [1, 0, 0, 0, 0], .char6),
   ([1, 1, 0, 1, 1, 0, 1, 0, 1, 0, 1, 0], [1, 1, 0, 0, 0], .char7),
   ([1, 1, 0, 1, 1, 0, 1, 1, 0, 1, 0, 1, 0], [1, 1, 1, 0, 0], .char8),
   ([1, 1, 0, 1, 1, 0, 1, 1, 0, 1, 1, 0, 1, 0], [1, 1, 1, 1, 0], .char9)]

/-- Space, LF and punctuation of 40_symbol_table.md R101: columns "bits", "symbol codes", and the instruction. -/
def markWords : List (List Nat × List Nat × Instr) := [
   ([1, 1, 1, 0], [3], .charSpace),
   ([1, 1, 1, 1, 0], [4], .charLF),
   ([1, 0, 1, 1, 0, 1, 0, 1, 1, 0, 1, 0, 1, 1, 0], [0, 1, 0, 1, 0, 1], .charPeriod),
   ([1, 1, 0, 1, 1, 0, 1, 0, 1, 0, 1, 1, 0, 1, 1, 0], [1, 1, 0, 0, 1, 1], .charComma),
   ([1, 0, 1, 0, 1, 1, 0, 1, 1, 0, 1, 0, 1, 0], [0, 0, 1, 1, 0, 0], .charQuestion)]

/-- Every character's word decodes to its row (40_symbol_table.md R101, column "bits"). -/
theorem test_decode_letters : ∀ r ∈ letterWords, decode defaultCfg (.morse (B r.1)) = .ok r.2.2 := by decide

theorem test_decode_digits : ∀ r ∈ digitWords, decode defaultCfg (.morse (B r.1)) = .ok r.2.2 := by decide

theorem test_decode_marks : ∀ r ∈ markWords, decode defaultCfg (.morse (B r.1)) = .ok r.2.2 := by decide

/-- Words numbered as spec/opcode_table.json numbers them (its "fixed" values and "match" values). -/
theorem test_table_words :
    decodeTableWord 32 0x10000000 = some (.bit .lo) ∧ decodeTableWord 32 0x30000000 = some .new ∧
    decodeTableWord 8 254 = some .start ∧ decodeTableWord 8 218 = some .charG ∧
    decodeTableWord 8 170 = some .charH ∧ decodeTableWord 8 214 = some .charK ∧ decodeTableWord 8 182 = some .charW ∧
    decodeTableWord 16 55990 = some .charComma ∧ decodeTableWord 8 0 = some .symCharBreak ∧
    decodeTableWord 32 0x60000000 = none := by decide

/-! ### One step -/

/-- BIT: the bit that completes the Start Pattern locks; a bit before it only enters the window
(95_test_vectors.md F1, F4). -/
theorem test_bit_lock :
    rspOf (withP (.waitingForStart (his 7))) 0x10000000 = some { lock := true } ∧
    parserOf (withP (.waitingForStart (his 7))) 0x10000000 = some (.listening [] []) ∧
    parserOf (withP (.waitingForStart (B [0, 1, 1, 0, 1, 1, 1, 1]))) 0x10000001 =
      some (.waitingForStart (B [1, 1, 0, 1, 1, 1, 1, 1])) := by decide

/-- BIT: the eighth `Hi` of a run (95_test_vectors.md M11), and a bit while a message is held (M16). -/
theorem test_bit_errors :
    rspOf (withP (.listening (his 7) (Q [0]))) 0x10000001 = some { err := 4#3 } ∧
    parserOf (withP (.listening (his 7) (Q [0]))) 0x10000001 = some .fresh ∧
    rspOf (withP (.listening (his 4) (Q [0]))) 0x10000000 = some { symValid := true, sym := 4#3, err := 3#3 } ∧
    rspOf holdingSos 0x10000001 = some { ignored := true } := by decide

/-- SAMPLE 0x801 acts as BIT 1 and SAMPLE 0x800 as BIT 0 after reset (43_decoder_state_machine.md R166). -/
theorem test_sample :
    parserOf State.reset 0x20000801 = some (.waitingForStart (B [1])) ∧
    rspOf State.reset 0x20000801 = some { data := 1#24 } ∧
    parserOf State.reset 0x20000800 = some (.waitingForStart (B [0])) := by decide

/-- NEW discards a held message (43_decoder_state_machine.md R168). -/
theorem test_new : parserOf holdingSos 0x30000000 = some .fresh ∧ rspOf holdingSos 0x30000000 = some {} := by decide

/-- SETTHR writes the threshold and leaves a held message (45_host_port_ops.md R190). -/
theorem test_setthr :
    (out? (step (holdingSos.withFetchWord 32 0x400003FF))).map State.thr = some 0x3FF#28 ∧
    parserOf holdingSos 0x400003FF = some holdingSos.parser := by decide

/-- RDMSG 1 of "sos" is `o`, RDMSG 3 is 0 (45_host_port_ops.md R192). -/
theorem test_rdmsg :
    rspOf holdingSos 0x50000001 = some { data := 0x00006F#24 } ∧ rspOf holdingSos 0x50000003 = some {} := by decide

/-- ENC 'a', 'S', LF and CR (95_test_vectors.md 2.1). -/
theorem test_enc :
    rspOf State.reset 0x80000061 = some { data := 0x080008#24 } ∧
    rspOf State.reset 0x80000053 = some { data := 0x0C0000#24 } ∧
    rspOf State.reset 0x8000000A = some { data := 0x040004#24 } ∧
    rspOf State.reset 0x8000000D = some { err := 1#3 } := by decide

/-- DEC `.-`, `-----`, the empty slice and a lone `CharBreak` (95_test_vectors.md 2.1; 40_symbol_table.md R106). -/
theorem test_dec :
    rspOf State.reset 0x90400008 = some { data := 0x161#24 } ∧
    rspOf State.reset 0x90A01249 = some { data := 0x130#24 } ∧
    rspOf State.reset 0x90000000 = some {} ∧
    rspOf State.reset 0x90200002 = some { err := 3#3 } := by decide

/-- S2B (95_test_vectors.md 2.2). -/
theorem test_s2b :
    rspOf State.reset 0xA0000001 = some { data := 0x303#24 } ∧
    rspOf State.reset 0xA0000004 = some { data := 0x50F#24 } ∧
    rspOf State.reset 0xA0000005 = some { ignored := true } := by decide

/-- B2S (95_test_vectors.md 2.2). -/
theorem test_b2s :
    rspOf State.reset 0xB0000303 = some { symValid := true, sym := 1#3 } ∧
    rspOf State.reset 0xB0000202 = some { err := 2#3 } ∧
    rspOf State.reset 0xB00008FF = some { err := 2#3 } ∧
    rspOf State.reset 0xB00001FE = some { symValid := true, sym := 2#3 } := by decide

/-- The `SYM` rows at a symbol boundary append their symbol; the `LineBreak` completes the message
(95_test_vectors.md M3, M6). -/
theorem test_sym_rows :
    (out? (exec .symDot (listening []))).map State.parser = some (.listening [] (Q [0])) ∧
    (out? (exec .symDash (listening [0]))).map State.parser = some (.listening [] (Q [0, 1])) ∧
    (out? (exec .symCharBreak (listening [3]))).map State.parser = some (.listening [] (Q [3, 2])) ∧
    (out? (exec .symWordBreak (listening []))).map State.parser = some (.listening [] (Q [3])) ∧
    (out? (exec .symLineBreak (listening [3, 2]))).map State.parser = some (.processing (Q [3, 2, 4]) [0x20#8]) := by
  decide

/-- `START` locks a fresh machine, presented as the table's word (95_test_vectors.md F1). -/
theorem test_start : (out? (step (State.reset.withFetchWord 8 254))).map State.parser = some (.listening [] []) := by
  decide

/-- Every `CHAR` row but LF appends the symbols of 40_symbol_table.md R101 and a `CharBreak` (30_encoding.md R92). -/
theorem test_char_letters : ∀ r ∈ letterWords,
    (out? (exec r.2.2 (listening []))).map State.parser = some (.listening [] (Q (r.2.1 ++ [2]))) := by decide

theorem test_char_digits : ∀ r ∈ digitWords,
    (out? (exec r.2.2 (listening []))).map State.parser = some (.listening [] (Q (r.2.1 ++ [2]))) := by decide

theorem test_char_marks : ∀ r ∈ markWords, r.2.2 ≠ .charLF →
    (out? (exec r.2.2 (listening []))).map State.parser = some (.listening [] (Q (r.2.1 ++ [2]))) := by decide

/-- `CHAR LF` ends the message at its `LineBreak`; its `CharBreak` is ignored (44_frame_format.md R183,
95_test_vectors.md M18). -/
theorem test_char_lf :
    (out? (exec .charLF (listening [0, 1, 2]))).map State.parser = some (.processing (Q [0, 1, 2, 4]) [0x61#8]) ∧
    (out? (exec .charLF (listening [0, 1, 2]))).map State.rsp = some { ignored := true } := by decide

/-- `rst` wins over a command (60_exceptions.md R207), and THR returns to 0x800. -/
theorem test_reset_wins :
    (out? (step { holdingSos with thr := 0#28, inputs := [{ rst := true, cmd := some (.op 0x50000000#32) }] })).map
      (fun s => (s.parser, s.thr, s.rspValid)) = some (.fresh, 0x800#28, false) := by decide

/-- `build_frame` of "" and "E." (95_test_vectors.md M1, M19), and of an unsupported character. -/
theorem test_build_frame :
    buildFrame defaultCfg [] = .ok (B [1, 1, 1, 1, 0]) ∧
    buildFrame defaultCfg [0x45#8, 0x2E#8] =
      .ok (B [1, 0, 0, 1, 0, 1, 1, 0, 1, 0, 1, 1, 0, 1, 0, 1, 1, 0, 0, 1, 1, 1, 1, 0]) ∧
    buildFrame defaultCfg [0x65#8, 0x21#8] = .err .unsupportedChar := by decide

/-! ### Witnesses: states and operands that meet the hypotheses of the obligations, clause by clause -/

/-- 00_scope.md R7 holds of a configuration that differs from the default in `LEN(LineBreak)`, up to `BITRUN_CAP`, and
in the capacities of the message and the sequence. -/
theorem test_cfg_valid (n m k : Nat) (hn : 5 ≤ n) (hn' : n ≤ 8) (hm : 1 ≤ m) (hm' : m ≤ 256) (hk : 1 ≤ k) :
    { defaultCfg with lenLineBreak := n, msgCap := m, symseqCap := k }.Valid where
  spLen_pos := (by decide : 1 ≤ defaultCfg.spLen)
  len_injective := fun s t h => by cases s <;> cases t <;> simp [Cfg.len, defaultCfg] at h ⊢ <;> omega
  len_pos := fun s => by cases s <;> simp [Cfg.len, defaultCfg] <;> omega
  len_le := fun s => by cases s <;> simp [Cfg.len, defaultCfg] <;> omega
  bitrunCap_pos := (by decide : 1 ≤ defaultCfg.bitrunCap)
  bitrunCap_le := (by decide : defaultCfg.bitrunCap ≤ 8)
  symseqCap_pos := hk
  msgCap_pos := hm
  msgCap_le := hm'
  table_chars := (by decide : (defaultCfg.table.map Prod.fst).Nodup)
  table_injective := (by decide : (defaultCfg.table.map Prod.snd).Nodup)
  table_rows := by
    have : ∀ row ∈ defaultCfg.table, isUpper row.1 = false ∧ (row.1 = 0x20#8 → row.2 = [.wordBreak]) ∧
        (row.1 = 0x0A#8 → row.2 = [.lineBreak]) ∧
        (row.1 ≠ 0x20#8 → row.1 ≠ 0x0A#8 → row.2 ≠ [] ∧ ∀ s ∈ row.2, s = .dot ∨ s = .dash) := by decide
    exact this
  table_space := (by decide : (0x20#8, [MorseSymbol.wordBreak]) ∈ defaultCfg.table)
  table_newline := (by decide : (0x0A#8, [MorseSymbol.lineBreak]) ∈ defaultCfg.table)

/-- The default configuration meets 00_scope.md R7. -/
theorem test_default_valid : defaultCfg.Valid :=
  test_cfg_valid 5 128 256 (by decide) (by decide) (by decide) (by decide) (by decide)

/-- A configuration in which `LineBreak` fills the BitRun. -/
def longCfg : Cfg := { defaultCfg with lenLineBreak := 8, msgCap := 128, symseqCap := 256 }

theorem test_long_valid : longCfg.Valid :=
  test_cfg_valid 8 128 256 (by decide) (by decide) (by decide) (by decide) (by decide)

/-- A configuration with room for one character. -/
def smallCfg : Cfg := { defaultCfg with lenLineBreak := 5, msgCap := 1, symseqCap := 7 }

theorem test_small_valid : smallCfg.Valid :=
  test_cfg_valid 5 1 7 (by decide) (by decide) (by decide) (by decide) (by decide)

/-- The invariant holds of a waiting, a listening and a holding state. -/
theorem test_inv (p : Parser) (h : p.Inv defaultCfg) : (withP p).Inv where
  cfg_valid := test_default_valid
  parser_inv := h
  rsp_legal := (by constructor <;> decide : State.reset.rsp.Legal)
  trace_legal := fun r hr => by simp [withP, State.reset, State.withParser] at hr
  quiet := fun _ => rfl
  thr_lt := (by decide : (0x800#28).toNat < 2 ^ 12)
  thrReset_lt := (by decide : (0x800#28).toNat < 2 ^ 12)

/-- The boundary operands of each clause of OperandFields. -/
theorem test_wit_OperandFields :
    defaultCfg.sampleW = 12 ∧
    ((0x10000001#32).extractLsb' 28 4 = 0x1#4 ∧ (0x10000001#32).extractLsb' 1 27 = 0#27) ∧
    ((0x20000FFF#32).extractLsb' 28 4 = 0x2#4 ∧ (0x20000FFF#32).extractLsb' 12 16 = 0#16) ∧
    ((0x40000FFF#32).extractLsb' 28 4 = 0x4#4 ∧ (0x40000FFF#32).extractLsb' 12 16 = 0#16) ∧
    ((0x500000FF#32).extractLsb' 28 4 = 0x5#4 ∧ (0x500000FF#32).extractLsb' 8 20 = 0#20) ∧
    ((0x800000FF#32).extractLsb' 28 4 = 0x8#4 ∧ (0x800000FF#32).extractLsb' 8 20 = 0#20) ∧
    ((0xA0000004#32).extractLsb' 28 4 = 0xA#4 ∧ (0xA0000004#32).extractLsb' 3 25 = 0#25 ∧
      symbolCode .lineBreak = ((0xA0000004#32).extractLsb' 0 3).toNat) ∧
    ((0xA0000005#32).extractLsb' 28 4 = 0xA#4 ∧ (0xA0000005#32).extractLsb' 3 25 = 0#25 ∧
      4 < ((0xA0000005#32).extractLsb' 0 3).toNat) ∧
    ((0xB0000900#32).extractLsb' 28 4 = 0xB#4 ∧ (0xB0000900#32).extractLsb' 12 16 = 0#16 ∧
      8 < ((0xB0000900#32).extractLsb' 8 4).toNat) ∧
    ((0xB00008FF#32).extractLsb' 28 4 = 0xB#4 ∧ (0xB00008FF#32).extractLsb' 12 16 = 0#16 ∧
      ((0xB00008FF#32).extractLsb' 8 4).toNat ≤ 8) ∧
    ((0x90E00005#32).extractLsb' 28 4 = 0x9#4 ∧ (0x90E00005#32).extractLsb' 24 4 = 0#4 ∧
      ∃ k < ((0x90E00005#32).extractLsb' 21 3).toNat, 4 < ((0x90E00005#32).extractLsb' (3 * k) 3).toNat) ∧
    ((0x90E00004#32).extractLsb' 28 4 = 0x9#4 ∧ (0x90E00004#32).extractLsb' 24 4 = 0#4 ∧
      ∀ k < ((0x90E00004#32).extractLsb' 21 3).toNat, ((0x90E00004#32).extractLsb' (3 * k) 3).toNat ≤ 4) := by
  decide

theorem test_wit_ReservedEncodings : ∃ (s : State) (w : _) (rest : _) (e : _), decode s.cfg (.op w) = .err e ∧
    s.inputs = { cmd := some (.op w) } :: rest ∧ s.parser ≠ .fresh ∧ s.cfg.sampleW = 12 :=
  ⟨{ holdingSos with inputs := [{ cmd := some (.op 0xB0000900#32) }] }, 0xB0000900#32, [], .runLength,
    by decide, rfl, by decide, rfl⟩

theorem test_wit_DecodeEncode : (∃ i : Instr, i.WellFormed defaultCfg ∧ i = .dec (Q [0, 1, 2, 3, 4, 0, 1])) ∧
    (Instr.sample 0xFFF#28).WellFormed defaultCfg ∧ (Instr.setthr 0xFF#28).WellFormed byteCfg :=
  ⟨⟨_, by decide, rfl⟩, by decide, by decide⟩

theorem test_wit_DecodedWellFormed : (∃ w i, decode defaultCfg w = .ok i) ∧ ∃ w i, decode byteCfg w = .ok i :=
  ⟨⟨.op 0x90E00000#32, .dec (Q [0, 0, 0, 0, 0, 0, 0]), by decide⟩, .op 0x200000FF#32, .sample 0xFF#28, by decide⟩

/-- The boundary operands of the second clause of DecodedWellFormed: at the default width, at 8 bits, and at the 28 bits the word has room for. -/
theorem test_wit_DecodedWellFormed_sample : defaultCfg.sampleW ≤ 28 ∧
    ((0x20000FFF#32).extractLsb' 28 4 ∈ [0x2#4, 0x4#4] ∧ (0x20000FFF#32).extractLsb' defaultCfg.sampleW (28 - defaultCfg.sampleW) = 0) ∧
    ((0x400000FF#32).extractLsb' 28 4 ∈ [0x2#4, 0x4#4] ∧ (0x400000FF#32).extractLsb' byteCfg.sampleW (28 - byteCfg.sampleW) = 0) ∧
    ((0x20000100#32).extractLsb' 28 4 ∈ [0x2#4, 0x4#4] ∧ (0x20000100#32).extractLsb' byteCfg.sampleW (28 - byteCfg.sampleW) ≠ 0) ∧
    ((0x2FFFFFFF#32).extractLsb' 28 4 ∈ [0x2#4, 0x4#4] ∧ (0x2FFFFFFF#32).extractLsb' 28 (28 - 28) = 0) ∧
    (0x10000001#32).extractLsb' 28 4 ∉ [0x2#4, 0x4#4] := by decide

theorem test_wit_LineCodeWords : (∃ i y, Instr.symbol? i = some y) ∧ ∃ i c, Instr.charCode? i = some c :=
  ⟨⟨.symCharBreak, .charBreak, rfl⟩, .charQuestion, 0x3F#8, rfl⟩

theorem test_wit_StepRunsDecoded : ∃ (s : State) (i : _) (rest : _) (w : _) (ins : _), s.inputs = i :: rest ∧ i.rst = false ∧ i.cmd = some w ∧
    decode s.cfg w = .ok ins :=
  ⟨holdingSos.withFetchWord 32 0x50000000, { cmd := some (.ofTableWord 32 0x50000000) }, [], _, .rdmsg 0#8,
    rfl, rfl, rfl, by decide⟩

theorem test_wit_IdleEdge : (∃ (s : State) (i : _) (rest : _), s.inputs = i :: rest ∧ i.rst = false ∧ i.cmd = none) ∧
    ∃ s : State, s.inputs = [] := ⟨⟨State.reset.withInputs [{}], {}, [], rfl, rfl, rfl⟩, State.reset, rfl⟩

theorem test_wit_InputsConsumed : ∃ s t : State, step s = .next t := ⟨State.reset, _, rfl⟩

theorem test_wit_ResetEdge : ∃ (s : State) (rest : _) (c : _), s.inputs = { rst := true, cmd := some c } :: rest :=
  ⟨holdingSos.withInputs [{ rst := true, cmd := some (.op 0x30000000#32) }], [], _, rfl⟩

theorem test_wit_RomsConstant : (∃ s t : State, step s = .next t) ∧ ∃ cfg : Cfg, cfg.Valid := ⟨⟨State.reset, _, rfl⟩, _, test_default_valid⟩

theorem test_wit_WaitingBit :
    (∃ (s : State) (win : _), s.parser = .waitingForStart win ∧ (fsPush s.cfg win .lo).2 = false) ∧
    ∃ (s : State) (win : _), s.parser = .waitingForStart win ∧ (fsPush s.cfg win .lo).2 = true :=
  ⟨⟨withP (.waitingForStart (his 6)), _, rfl, by decide⟩, withP (.waitingForStart (his 7)), _, rfl, by decide⟩

theorem test_wit_RunOverflow :
    (∃ (s : State) (run : _) (seq : _), s.cfg.Valid ∧ s.parser = .listening run seq ∧ (∀ b ∈ run, b = .hi) ∧
      run.length + 1 < s.cfg.bitrunCap) ∧
    (∃ (s : State) (run : _) (seq : _), s.cfg.Valid ∧ s.parser = .listening run seq ∧ (∀ b ∈ run, b = .hi) ∧
      run.length + 1 = s.cfg.bitrunCap ∧ ∀ y, s.cfg.len y ≠ s.cfg.bitrunCap) ∧
    ∃ (s : State) (run : _) (seq : _) (y : _), s.cfg.Valid ∧ s.parser = .listening run seq ∧ (∀ b ∈ run, b = .hi) ∧
      run.length + 1 = s.cfg.bitrunCap ∧ s.cfg.len y = s.cfg.bitrunCap :=
  ⟨⟨withP (.listening (his 6) []), _, _, test_default_valid, rfl, by decide, by decide⟩,
    ⟨withP (.listening (his 7) []), _, _, test_default_valid, rfl, by decide, by decide,
      fun y => by cases y <;> decide⟩,
    withCfg longCfg (.listening (his 7) []), _, _, .lineBreak, test_long_valid, rfl, by decide, by decide, by decide⟩

theorem test_wit_RunResolves : ∃ (s : State) (run : _) (seq : _) (y : _), s.cfg.Valid ∧ s.parser = .listening run seq ∧ (∀ b ∈ run, b = .hi) ∧
    s.cfg.len y = run.length + 1 ∧ seq.length < s.cfg.symseqCap ∧ y ≠ .lineBreak :=
  ⟨withP (.listening (his 3) (List.replicate 255 .dot)), _, _, .wordBreak, test_default_valid, rfl, by decide, rfl,
    by rw [List.length_replicate]; decide, by decide⟩

theorem test_wit_RunUnknown : ∃ (s : State) (run : _) (seq : _), s.parser = .listening run seq ∧ (∀ b ∈ run, b = .hi) ∧
    (∀ y, s.cfg.len y ≠ run.length + 1) ∧ s.cfg = defaultCfg ∧ run.length < defaultCfg.bitrunCap :=
  ⟨withP (.listening (his 7) (Q [0])), _, _, rfl, by decide, fun y => by cases y <;> decide, rfl, by decide⟩

theorem test_wit_SequenceOverflow : ∃ (s : State) (run : _) (seq : _), s.cfg.Valid ∧ s.parser = .listening run seq ∧ (∀ b ∈ run, b = .hi) ∧
    s.cfg.len .lineBreak = run.length + 1 ∧ seq.length = s.cfg.symseqCap :=
  ⟨withP (.listening (his 4) (List.replicate 256 .charBreak)), _, _, test_default_valid, rfl, by decide, rfl,
    List.length_replicate⟩

theorem test_wit_MessageComplete : ∃ (s : State) (run : _) (seq : _) (m : _), s.cfg.Valid ∧ s.parser = .listening run seq ∧
    (∀ b ∈ run, b = .hi) ∧ s.cfg.len .lineBreak = run.length + 1 ∧ seq.length < s.cfg.symseqCap ∧
    process s.cfg (seq ++ [.lineBreak]) = .ok m ∧ m.length = 1 :=
  ⟨withCfg smallCfg (.listening (his 4) (Q [2, 0, 2, 2, 2, 2])), _, _, [0x65#8], test_small_valid, rfl, by decide, rfl,
    by decide, by decide, rfl⟩

theorem test_wit_MessageFails :
    (∃ (s : State) (run : _) (seq : _), s.cfg.Valid ∧ s.parser = .listening run seq ∧ (∀ b ∈ run, b = .hi) ∧
      s.cfg.len .lineBreak = run.length + 1 ∧ seq.length < s.cfg.symseqCap ∧
      process s.cfg (seq ++ [.lineBreak]) = .err .unknownSequence) ∧
    ∃ (s : State) (run : _) (seq : _), s.cfg.Valid ∧ s.parser = .listening run seq ∧ (∀ b ∈ run, b = .hi) ∧
      s.cfg.len .lineBreak = run.length + 1 ∧ seq.length < s.cfg.symseqCap ∧
      process s.cfg (seq ++ [.lineBreak]) = .err .fullBuffer :=
  ⟨⟨withP (.listening (his 4) (Q [0])), _, _, test_default_valid, rfl, by decide, rfl, by decide, by decide⟩,
    withCfg smallCfg (.listening (his 4) (Q [0, 2, 0, 2])), _, _, test_small_valid, rfl, by decide, rfl, by decide,
    by decide⟩

theorem test_wit_ProcessFits : ∃ (cfg : Cfg) (q : _), cfg.Valid ∧ .lineBreak ∉ q ∧ q.length + 1 < 2 * cfg.msgCap + 3 ∧
    process cfg (q ++ [.lineBreak]) ≠ .ok [] := ⟨smallCfg, Q [0, 2, 2], test_small_valid, by decide, by decide, by decide⟩

theorem test_wit_ProcessDecodesRows : ∃ (cfg : Cfg) (rows : List (Byte × List MorseSymbol)), cfg.Valid ∧
    (∀ row ∈ rows, row ∈ cfg.table ∧ row.1 ≠ 0x0A#8) ∧ rows.length ≤ cfg.msgCap ∧ rows ≠ [] :=
  ⟨smallCfg, [(0x20#8, Q [3])], test_small_valid, by decide, by decide, by decide⟩

theorem test_wit_ProcessFirstError :
    (∃ (cfg : Cfg) (q : _) (pre : _) (sub : _) (post : _) (m : _), splitBreaks q = pre ++ sub :: post ∧ processSubs cfg pre [] = .ok m ∧
      sub ≠ [] ∧ sub ≠ [.lineBreak] ∧ ∀ row ∈ cfg.table, row.2 ≠ sub) ∧
    ∃ (cfg : Cfg) (q : _) (pre : _) (sub : _) (post : _) (m : _), splitBreaks q = pre ++ sub :: post ∧ processSubs cfg pre [] = .ok m ∧
      sub ≠ [] ∧ sub ≠ [.lineBreak] ∧ (∃ row ∈ cfg.table, row.2 = sub) ∧ m.length = cfg.msgCap :=
  ⟨⟨defaultCfg, Q [0, 2, 3, 0, 2, 4], [Q [0]], Q [3, 0], [Q [4]], [0x65#8], by decide, by decide, by decide, by decide,
      by decide⟩,
    smallCfg, Q [0, 2, 1, 2, 4], [Q [0]], Q [1], [Q [4]], [0x65#8], by decide, by decide, by decide, by decide,
    by decide, by decide⟩

theorem test_wit_MessageTerminator : ∃ cfg : Cfg, cfg.Valid ∧
    (∃ pre m, process cfg pre = .ok m ∧ pre.getLast? = some .charBreak ∧
      ∃ sub : List MorseSymbol, sub ≠ [] ∧ .charBreak ∉ sub) ∧ (∃ m, process cfg [] = .ok m) ∧
    ∃ q m, process cfg q = .ok m ∧ m ≠ [] :=
  ⟨defaultCfg, test_default_valid, ⟨Q [0, 2], [0x65#8], by decide, by decide, Q [0], by decide, by decide⟩,
    ⟨[], rfl⟩, Q [3, 2, 4], [0x20#8], by decide, by decide⟩

theorem test_wit_IgnoredWhileHeld : ∃ (s : State) (seq : _) (msg : _), s.parser = .processing seq msg := ⟨holdingSos, _, _, rfl⟩

theorem test_wit_HeldMessageKept :
    (∃ (s : State) (seq : _) (msg : _) (i : _) (t : _), s.parser = .processing seq msg ∧ i ≠ .new ∧ exec i s = .next t) ∧
    (∃ (s : State) (seq : _) (msg : _) (t : _), s.parser = .processing seq msg ∧ exec .new s = .next t) ∧
    ∃ (s : State) (seq : _) (msg : _) (i : _) (rest : _) (t : _), s.parser = .processing seq msg ∧ s.inputs = i :: rest ∧ i.rst = true ∧
      step s = .next t :=
  ⟨⟨holdingSos, _, _, .start, _, rfl, by decide, rfl⟩, ⟨holdingSos, _, _, _, rfl, rfl⟩,
    holdingSos.withInputs [{ rst := true }], _, _, _, _, _, rfl, rfl, rfl, rfl⟩

theorem test_wit_SampleThreshold : (∃ (s : State) (v : Sample),
      Bit.lo = (if s.thr.toNat < v.toNat then Bit.hi else Bit.lo) ∧
      Bit.hi = (if s.thr.toNat < (v + 1#28).toNat then Bit.hi else Bit.lo)) ∧
    (∃ (s : State) (v : Sample) (b : _), b = (if s.thr.toNat < v.toNat then Bit.hi else Bit.lo) ∧
      s.thr.toNat = 2 ^ s.cfg.sampleW - 1 ∧ (Instr.sample v).WellFormed s.cfg) ∧
    ∃ (s : State) (v : Sample) (b : _), b = (if s.thr.toNat < v.toNat then Bit.hi else Bit.lo) ∧ s.thr.toNat = 0 ∧ v.toNat ≠ 0 :=
  ⟨⟨State.reset, 0x800#28, by decide, by decide⟩, ⟨State.reset.withThr 0xFFF#28, 0xFFF#28, .lo, by decide, by decide, by decide⟩,
    State.reset.withThr 0#28, 1#28, .hi, by decide, by decide, by decide⟩

theorem test_wit_SetthrWrites : ∃ v u : Sample, Bit.lo = (if v.toNat < u.toNat then Bit.hi else Bit.lo) ∧
    Bit.hi = (if v.toNat < (u + 1#28).toNat then Bit.hi else Bit.lo) := ⟨0x3FF#28, 0x3FF#28, by decide, by decide⟩

theorem test_wit_RdmsgReads : (∃ (s : State) (seq : _) (msg : _) (i j : Byte) (ch : _), s.parser = .processing seq msg ∧ msg[i.toNat]? = some ch ∧
      j.toNat = i.toNat + 1 ∧ (∀ seq' msg', s.parser = .processing seq' msg' → msg'.length ≤ j.toNat) ∧
      s.cfg = defaultCfg ∧ process s.cfg seq = .ok msg) ∧
    (∃ (s : State) (seq : _) (msg : _), s.parser = .processing seq msg ∧ msg.length = 255 ∧ msg.length < 256) ∧
    ∃ s : State, ∀ seq msg, s.parser ≠ .processing seq msg :=
  ⟨⟨holdingSos, _, _, 2#8, 3#8, 0x73#8, rfl, by decide, by decide,
      fun seq' msg' h => by cases h; decide, rfl, by decide⟩,
    ⟨withP (.processing [] (List.replicate 255 0x65#8)), _, _, rfl, List.length_replicate,
      by rw [List.length_replicate]; decide⟩,
    listening [0], fun _ _ h => nomatch h⟩

theorem test_wit_EncLooksUp : ∃ s : State, s.cfg.Valid ∧ (∃ q, (fold 0x5A#8, q) ∈ s.cfg.table ∧ q.length ≤ 6) ∧
    (∃ q, (fold 0x3F#8, q) ∈ s.cfg.table ∧ q.length = 6) ∧ ∀ row ∈ s.cfg.table, row.1 ≠ fold 0x5B#8 :=
  ⟨State.reset, test_default_valid, ⟨Q [1, 1, 0, 0], by decide, by decide⟩,
    ⟨Q [0, 0, 1, 1, 0, 0], by decide, by decide⟩, by decide⟩

theorem test_wit_DecLooksUp : ∃ s : State, s.cfg.Valid ∧ s.cfg = defaultCfg ∧ (∃ ch q, (ch, q) ∈ s.cfg.table ∧ q.length = 6) ∧
    (∀ row ∈ s.cfg.table, row.2 ≠ [.charBreak]) ∧ 6 < (Q [0, 0, 0, 0, 0, 0, 0]).length :=
  ⟨State.reset, test_default_valid, rfl, ⟨0x3F#8, Q [0, 0, 1, 1, 0, 0], by decide, by decide⟩, by decide, by decide⟩

theorem test_wit_S2bPacks : ∃ s : State, s.cfg.Valid ∧ s.cfg.len .lineBreak = s.cfg.bitrunCap := ⟨withCfg longCfg .fresh, test_long_valid, by decide⟩

theorem test_wit_B2sResolves : ∃ s : State, s.cfg.Valid ∧
    (∃ (r : List Bit) (y : _), r = List.replicate (s.cfg.len y - 1) .hi ++ [.lo]) ∧
    ∀ y, his 8 ≠ List.replicate (s.cfg.len y - 1) .hi ++ [.lo] :=
  ⟨State.reset, test_default_valid, ⟨_, .charBreak, rfl⟩, fun y => by cases y <;> decide⟩

theorem test_wit_SymbolTableRoundTrip : ∃ (cfg : Cfg) (c : _) (q : _), cfg.Valid ∧ stEncode cfg c = .ok q ∧ fold c ≠ c :=
  ⟨defaultCfg, 0x5A#8, Q [1, 1, 0, 0], test_default_valid, by decide, by decide⟩

theorem test_wit_CaseFolding : (∃ c : Byte, 0x41 ≤ c.toNat ∧ c.toNat ≤ 0x5A) ∧ (∃ c : Byte, ¬(0x41 ≤ c.toNat ∧ c.toNat ≤ 0x5A)) ∧
    ∃ (cfg : Cfg) (q : _) (ch : _), cfg.Valid ∧ stDecode cfg q = .ok (some ch) :=
  ⟨⟨0x5A#8, by decide, by decide⟩, ⟨0x5B#8, by decide⟩, defaultCfg, Q [0], 0x65#8, test_default_valid, by decide⟩

theorem test_wit_DefaultTable : (∃ row, row ∈ defaultCfg.table) ∧ 0x80 ≤ (0x80#8).toNat ∧ 0x80 ≤ (0xFF#8).toNat :=
  ⟨⟨(0x0A#8, Q [4]), by decide⟩, by decide, by decide⟩

theorem test_wit_TimingCodecRoundTrip : ∃ (cfg : Cfg) (r : _) (y : _), cfg.Valid ∧ bitsToSymbol cfg r = .ok y :=
  ⟨longCfg, B [1, 1, 1, 1, 1, 1, 1, 0], .lineBreak, test_long_valid, by decide⟩

theorem test_wit_PushFlat : (∃ (cfg : Cfg) (win : List Bit), 1 ≤ cfg.spLen ∧ win.length = cfg.spLen) ∧
    ∃ (cfg : Cfg) (win : List Bit), 1 ≤ cfg.spLen ∧ win.length + 1 = cfg.spLen :=
  ⟨⟨defaultCfg, his 8, by decide, by decide⟩, defaultCfg, his 7, by decide, by decide⟩

theorem test_wit_FirstOccurrence :
    (∃ (cfg : Cfg) (x : List Bit) (k : _), 1 ≤ cfg.spLen ∧ k < x.length ∧ (∀ j < k, ¬ cfg.sp <:+ x.take (j + 1)) ∧
      cfg.sp <:+ x.take (k + 1)) ∧
    ∃ (cfg : Cfg) (x : List Bit) (k : _), 1 ≤ cfg.spLen ∧ k < x.length ∧ (∀ j < k, ¬ cfg.sp <:+ x.take (j + 1)) ∧
      ¬ cfg.sp <:+ x.take (k + 1) :=
  ⟨⟨defaultCfg, B [0, 1, 1, 1, 1, 1, 1, 1, 0, 1], 8, by decide, by decide, by decide, by decide⟩,
    defaultCfg, B [0, 1, 1, 1, 1, 1, 1, 1, 0, 1], 7, by decide, by decide, by decide, by decide⟩

theorem test_wit_OnlyLockStartsListening : ∃ (s t : State) (win : _) (i : _), s.parser = .waitingForStart win ∧ Instr.symbol? i = none ∧
    Instr.charCode? i = none ∧ i ≠ .start ∧ exec i s = .next t ∧ t.stateOut ≠ 0#2 :=
  ⟨withP (.waitingForStart (his 7)), _, _, .sample 0#28, rfl, rfl, rfl, by decide, rfl, by decide⟩

theorem test_wit_ErrorEntry :
    (∃ (s t : State) (i : _) (b : _), (∃ v, i = Instr.sample v ∧ b = sampleBit s.thr v) ∧ exec i s = .next t ∧ t.rsp.err ≠ 0#3 ∧
      b = .hi) ∧
    ∃ (s t : State) (b : _) (y : _), exec (.bit b) s = .next t ∧ t.rsp.err ≠ 0#3 ∧ b = .lo ∧
      bitsToSymbol s.cfg (s.parser.run ++ [.lo]) = .ok y :=
  ⟨⟨withP (.listening (his 7) (Q [0])), _, _, _, ⟨0xFFF#28, rfl, rfl⟩, rfl, by decide, by decide⟩,
    withP (.listening (his 4) (Q [0])), _, _, .lineBreak, rfl, by decide, rfl, by decide⟩

theorem test_wit_UnsupportedCharOnlyEnc : ∃ (s t : State) (i : _), exec i s = .next t ∧
    ∃ r ∈ t.trace.drop s.trace.length, r.err = 1#3 := ⟨holdingSos, _, .enc 0x0D#8, rfl, { err := 1#3 }, by decide, rfl⟩

theorem test_wit_ResponseLegal :
    (∃ (s t : State) (b : _), exec (.bit b) s = .next t ∧ t.rsp.err = 4#3 ∧ b = .lo) ∧
    ∃ (s t : State) (v : _), exec (.sample v) s = .next t ∧ t.rsp.err = 3#3 :=
  ⟨⟨withCfg smallCfg (.listening [] (Q [0, 0, 0, 0, 0, 0, 0])), _, .lo, rfl, by decide, rfl⟩,
    withP (.listening (his 4) (Q [0])), _, 0#28, rfl, by decide⟩

theorem test_wit_OneResponse : ∃ (s t : State) (i : _), Instr.symbol? i = none ∧ Instr.charCode? i = none ∧ i ≠ .start ∧
    exec i s = .next t := ⟨State.reset, _, .new, rfl, rfl, by decide, rfl⟩

theorem test_wit_ReadsKeepState :
    (∃ i, (∃ q, i = Instr.dec q)) ∧
    ∃ (s u t : State) (i : _), u.parser = s.parser ∧ u.cfg = s.cfg ∧ u ≠ s ∧ (∀ b, i ≠ .bit b) ∧ (∀ v, i ≠ .sample v) ∧
      i ≠ .new ∧ i ≠ .start ∧ Instr.symbol? i = none ∧ Instr.charCode? i = none ∧ exec i s = .next t :=
  ⟨⟨_, [], rfl⟩, holdingSos, holdingSos.withThr 0#28, _, .setthr 0#28, rfl, rfl, by decide, by simp, by simp, by decide,
    by decide, rfl, rfl, rfl⟩

theorem test_wit_StreamFrame : ∃ (s t : State) (i : _), ((∃ b, i = Instr.bit b) ∨ (∃ v, i = Instr.sample v) ∨ i = .new ∨ i = .start ∨
    i.symbol?.isSome ∨ i.charCode?.isSome) ∧ exec i s = .next t :=
  ⟨State.reset, _, .charQuestion, .inr (.inr (.inr (.inr (.inr rfl)))), rfl⟩

theorem test_wit_LookupsDoNotDisturb : ∃ s t : State, exec (.setthr 0#28) s = .next t ∧ exec (.rdmsg 0#8) s = .next (s.respond {}) ∧
    s.parser ≠ .fresh := ⟨listening [0], _, rfl, rfl, by decide⟩

theorem test_wit_LineCodeExpands : (∃ i y, Instr.symbol? i = some y) ∧
    (∃ (s : State) (i : _) (c : _) (q : _), Instr.charCode? i = some c ∧ stEncode s.cfg c = .ok q) ∧
    ∃ (s : State) (i : _) (c : _) (e : _), Instr.charCode? i = some c ∧ stEncode s.cfg c = .err e :=
  ⟨⟨.symLineBreak, _, rfl⟩, ⟨State.reset, .charZ, 0x7A#8, Q [1, 1, 0, 0], rfl, by decide⟩,
    withCfg { defaultCfg with table := [] } .fresh, .charZ, 0x7A#8, .unsupportedChar, rfl, rfl⟩

theorem test_wit_ExpansionRefines : ∃ (s : State) (i : _) (bits : _), expansion s.cfg i = some bits ∧ bits ≠ [] := ⟨State.reset, .charLF, _, rfl, by decide⟩

theorem test_wit_SymRows :
    (∃ (s : State) (i : _) (y : _) (seq : _), Instr.symbol? i = some y ∧ s.cfg.Valid ∧ s.parser = .listening [] seq ∧
      seq.length = s.cfg.symseqCap) ∧
    (∃ (s : State) (i : _) (y : _) (seq : _), Instr.symbol? i = some y ∧ s.cfg.Valid ∧ s.parser = .listening [] seq ∧
      seq.length + 1 = s.cfg.symseqCap ∧ y ≠ .lineBreak) ∧
    ∃ (s : State) (i : _) (seq : _) (m : _), Instr.symbol? i = some .lineBreak ∧ s.cfg.Valid ∧ s.parser = .listening [] seq ∧
      seq.length + 1 = s.cfg.symseqCap ∧ process s.cfg (seq ++ [.lineBreak]) = .ok m ∧
      process s.cfg (Q [0, 4]) = .err .unknownSequence :=
  ⟨⟨withCfg smallCfg (.listening [] (Q [0, 0, 0, 0, 0, 0, 0])), .symDot, _, _, rfl, test_small_valid, rfl, by decide⟩,
    ⟨withCfg smallCfg (.listening [] (Q [0, 0, 0, 0, 0, 0])), .symDash, _, _, rfl, test_small_valid, rfl, by decide,
      by decide⟩,
    withCfg smallCfg (.listening [] (Q [2, 2, 0, 2, 2, 2])), .symLineBreak, _, [0x65#8], rfl, test_small_valid, rfl,
    by decide, by decide, by decide⟩

theorem test_wit_StartRow : ∃ s : State, s.cfg.Valid ∧ s.parser = .fresh := ⟨State.reset, test_default_valid, rfl⟩

theorem test_wit_CharRows :
    (∃ (s : State) (i : _) (c : _) (q : _) (seq : _), Instr.charCode? i = some c ∧ s.cfg.Valid ∧ (c, q) ∈ s.cfg.table ∧
      s.parser = .listening [] seq ∧ c ≠ 0x0A#8 ∧ seq.length + q.length + 1 = s.cfg.symseqCap) ∧
    ∃ (s : State) (i : _) (q : _) (seq : _) (m : _), Instr.charCode? i = some 0x0A#8 ∧ s.cfg.Valid ∧ (0x0A#8, q) ∈ s.cfg.table ∧
      s.parser = .listening [] seq ∧ seq.length < s.cfg.symseqCap ∧ process s.cfg (seq ++ [.lineBreak]) = .ok m :=
  ⟨⟨withCfg smallCfg (.listening [] []), .charPeriod, 0x2E#8, Q [0, 1, 0, 1, 0, 1], [], rfl, test_small_valid, by decide,
      rfl, by decide, by decide⟩,
    listening [0, 1, 2], .charLF, Q [4], _, [0x61#8], rfl, test_default_valid, by decide, rfl, by decide, by decide⟩

theorem test_wit_DeadChannel :
    (∃ s : State, s.cfg.Valid ∧ s.cfg.len .charBreak = 1 ∧ s.parser = .listening [] []) ∧
    ∃ s : State, s.cfg.Valid ∧ s.cfg.len .charBreak = 1 ∧ s.parser = .fresh ∧
      (∃ c ∈ s.cfg.sp, c ≠ .lo) ∧ ∃ c ∈ s.cfg.sp, c ≠ .hi :=
  ⟨⟨withP (.listening [] []), test_default_valid, rfl, rfl⟩,
    State.reset, test_default_valid, rfl, rfl, by decide, by decide⟩

theorem test_wit_FlatDeterminesParser :
    (∃ (f : FlatRegs) (seq : List MorseSymbol) (msg : List Byte), f.seqLen = seq.length ∧ f.msgLen = msg.length ∧
      f.state = 0#2 ∧ f.win < 2 ^ f.winLen ∧ f.run = 0 ∧ f.runLen = 0 ∧ seq = [] ∧ msg = []) ∧
    (∃ (f : FlatRegs) (seq : List MorseSymbol) (msg : List Byte), f.seqLen = seq.length ∧ f.msgLen = msg.length ∧
      f.state = 1#2 ∧ f.win = 0 ∧ f.winLen = 0 ∧ f.run = 2 ^ f.runLen - 1 ∧ msg = []) ∧
    (∃ (f : FlatRegs) (seq : List MorseSymbol) (msg : List Byte), f.seqLen = seq.length ∧ f.msgLen = msg.length ∧
      f.state = 2#2 ∧ f.win = 0 ∧ f.winLen = 0 ∧ f.run = 0 ∧ f.runLen = 0) ∧
    (∃ p p' : Parser, p.flat = p'.flat ∧ p.seq = p'.seq ∧ p.msg = p'.msg) ∧
    ∃ p : Parser, p.flat = Parser.fresh.flat :=
  ⟨⟨⟨0#2, 255, 8, 0, 0, 0, 0⟩, [], [], rfl, rfl, rfl, by decide, rfl, rfl, rfl, rfl⟩,
    ⟨⟨1#2, 0, 0, 127, 7, 2, 0⟩, Q [0, 1], [], rfl, rfl, rfl, rfl, rfl, rfl, rfl⟩,
    ⟨⟨2#2, 0, 0, 0, 0, 1, 0⟩, Q [4], [], rfl, rfl, rfl, rfl, rfl, rfl, rfl⟩,
    ⟨holdingSos.parser, _, rfl, rfl, rfl⟩, .fresh, rfl⟩

theorem test_wit_RegisterRanges : ∃ (s t : State) (p : Parser) (cfg : Cfg), s.Inv ∧ step s = .next t ∧ p = t.parser ∧ cfg = t.cfg :=
  ⟨_, _, _, _, test_inv (.listening (his 7) (Q [0])) ⟨by decide, by decide, by decide, by decide⟩, rfl, rfl, rfl⟩

/-- One witness for each clause; in the last three the bits reach `FRAME_CAP` exactly, or pass it by one. -/
theorem test_wit_BuildFrameShape : (∃ (cfg : Cfg) (text : List Byte) (bits : _), buildFrame cfg text = .ok bits) ∧
    (∃ (cfg : Cfg) (text : List Byte) (e : _), buildFrame cfg text = .err e) ∧
    (∃ (cfg : Cfg) (text : List Byte) (c : _) (e : _), (∀ c ∈ text, ∃ q, stEncode cfg c = .ok q) ∧
      (text.flatMap (charBits cfg)).length = cfg.frameCap ∧ stEncode cfg c = .err e) ∧
    (∃ (cfg : Cfg) (text : List Byte), (∀ c ∈ text, ∃ q, stEncode cfg c = .ok q) ∧
      cfg.frameCap + 1 = (text.flatMap (charBits cfg)).length) ∧
    ∃ (cfg : Cfg) (text : List Byte), (∀ c ∈ text, ∃ q, stEncode cfg c = .ok q) ∧
      cfg.frameCap + 1 = (text.flatMap (charBits cfg)).length + (symbolToBits cfg .lineBreak).length :=
  have he : ∀ (n : Nat) (c : Byte), c ∈ [0x65#8] → ∃ q, stEncode { defaultCfg with frameCap := n } c = .ok q := fun n c hc => by
    rw [List.mem_singleton] at hc
    subst hc
    exact ⟨Q [0], rfl⟩
  ⟨⟨{ defaultCfg with frameCap := 5 }, [], B [1, 1, 1, 1, 0], by decide⟩, ⟨defaultCfg, [0x80#8], .unsupportedChar, by decide⟩,
    ⟨{ defaultCfg with frameCap := 3 }, [0x65#8], 0x80#8, .unsupportedChar, he 3, by decide, by decide⟩,
    ⟨{ defaultCfg with frameCap := 2 }, [0x65#8], he 2, by decide⟩, { defaultCfg with frameCap := 7 }, [0x65#8], he 7, by decide⟩

theorem test_wit_EndToEnd : ∃ (s : State) (text : _) (bits : _), s.cfg.Valid ∧ s.parser = .fresh ∧
    (∀ c ∈ text, c ≠ 0x0A#8 ∧ ∃ q, stEncode s.cfg c = .ok q) ∧ symbolCount s.cfg text = s.cfg.symseqCap ∧
    text.length ≤ s.cfg.msgCap ∧ buildFrame s.cfg text = .ok bits :=
  ⟨withCfg smallCfg .fresh, [0x35#8], B [1, 0, 1, 0, 1, 0, 1, 0, 1, 0, 0, 1, 1, 1, 1, 0], test_small_valid, rfl,
    fun c hc => by
      rw [List.mem_singleton] at hc
      subst hc
      exact ⟨by decide, Q [0, 0, 0, 0, 0], by decide⟩,
    by decide, by decide, by decide⟩

theorem test_wit_StepKeepsInv :
    (∃ s t : State, s.Inv ∧ step s = .next t) ∧ (∃ s t : State, s.Inv ∧ step s = .next t) ∧
    ∃ s t : State, s.Inv ∧ step s = .next t ∧ t.stateOut = 2#2 :=
  ⟨⟨_, _, test_inv (.waitingForStart (his 8)) ⟨by decide, by decide⟩, rfl⟩,
    ⟨_, _, test_inv (.listening (his 7) (List.replicate 256 .dot))
      ⟨by decide, by decide, by rw [List.length_replicate]; decide, fun h => nomatch List.eq_of_mem_replicate h⟩, rfl⟩,
    _, _, test_inv (.processing (Q [0, 2, 4]) [0x65#8])
      ⟨by decide, by decide, by decide, by decide, by decide, by decide⟩, rfl, rfl⟩

end Sys2Proof.Tests
end

section
/-! The decoder read format by format: what each case of `decodeOp` and of `decode` says of the word, and O5. -/

namespace Sys2Proof

variable {cfg : Cfg} {w : Word} {n : Nat} {k : Nat → Result Reserved Instr} {i : Instr}

/-! ### The operand -/

/-- The must-be-zero check of `operand` on the slice of the word it is about (30_encoding.md R73). -/
theorem field_27_eq_zero_iff : field w 27 n = 0 ↔ w.extractLsb' n (28 - n) = 0 := by
  rw [field_eq_extractLsb', ← BitVec.toNat_inj]
  rfl

theorem operand_of_unassigned_zero (h : w.extractLsb' n (28 - n) = 0) :
    operand w n k = k (field w 27 0 % 2 ^ n) := if_pos (field_27_eq_zero_iff.mpr h)

theorem operand_of_unassigned_ne_zero (h : w.extractLsb' n (28 - n) ≠ 0) :
    operand w n k = .err .unassignedBit := if_neg fun h0 => h (field_27_eq_zero_iff.mp h0)

/-- The operand of format V is below `2^n`, also where `n` is wider than the 28 bits of the type `Sample`. -/
theorem sample_operand_lt (w : Word) (n : Nat) : (BitVec.ofNat 28 (field w 27 0 % 2 ^ n)).toNat < 2 ^ n := by
  rw [BitVec.toNat_ofNat]
  exact Nat.lt_of_le_of_lt (Nat.mod_le _ _) (Nat.mod_lt _ (Nat.two_pow_pos n))

/-- The operand of format V loses nothing in the type `Sample`: it is `cmd[n-1:0]`. -/
theorem sample_operand_toNat (h : n ≤ 28) :
    (BitVec.ofNat 28 (field w 27 0 % 2 ^ n)).toNat = (w.extractLsb' 0 n).toNat := by
  rw [field_mod w h, BitVec.toNat_ofNat,
    Nat.mod_eq_of_lt (Nat.lt_of_lt_of_le (BitVec.isLt _) (Nat.pow_le_pow_right (by decide) h))]

/-! ### The operation code -/

theorem decodeOp_sample (h : w.extractLsb' 28 4 = 0x2#4) :
    decodeOp cfg w = operand w cfg.sampleW fun v => .ok (.sample (BitVec.ofNat 28 v)) := by
  have hc : field w 31 28 = 0x2 := by rw [field_eq_extractLsb', h]; rfl
  simp only [decodeOp, hc]

theorem decodeOp_setthr (h : w.extractLsb' 28 4 = 0x4#4) :
    decodeOp cfg w = operand w cfg.sampleW fun v => .ok (.setthr (BitVec.ofNat 28 v)) := by
  have hc : field w 31 28 = 0x4 := by rw [field_eq_extractLsb', h]; rfl
  simp only [decodeOp, hc]

/-- SAMPLE and SETTHR are the only operations whose format reads the configuration. -/
theorem decodeOp_cfg_irrelevant (cfg cfg' : Cfg) (h2 : field w 31 28 ≠ 0x2) (h4 : field w 31 28 ≠ 0x4) :
    decodeOp cfg w = decodeOp cfg' w := by
  unfold decodeOp
  split
  case h_2 h => exact absurd h h2
  case h_4 h => exact absurd h h4
  all_goals simp only [*]

/-! ### What is decoded is well-formed -/

theorem decodeDec_wellFormed (h : decodeDec w = .ok i) : i.WellFormed cfg := by
  unfold decodeDec at h
  split at h <;> cases h
  rename_i q hq
  have hn : field w 23 21 < 2 ^ 3 := Nat.mod_lt _ (by decide)
  rw [← (unpackSymbols_eq_some.mp hq).1] at hn
  exact decide_eq_true (Nat.le_of_lt_succ hn)

theorem decodeB2s_wellFormed (h : decodeB2s w = .ok i) : i.WellFormed cfg := by
  unfold decodeB2s at h
  split at h <;> cases h
  simpa [Instr.WellFormed, Instr.wellFormed]

theorem decodeOp_wellFormed (h : decodeOp cfg w = .ok i) : i.WellFormed cfg := by
  unfold decodeOp at h
  split at h
  case h_2 | h_4 =>
    obtain ⟨-, hi⟩ := operand_eq_ok h
    cases hi
    exact decide_eq_true (sample_operand_lt w cfg.sampleW)
  case h_3 => split at h <;> cases h; rfl
  case h_7 => exact decodeDec_wellFormed (operand_eq_ok h).2
  case h_8 =>
    obtain ⟨-, hi⟩ := operand_eq_ok h
    split at hi <;> cases hi
    rfl
  case h_9 => exact decodeB2s_wellFormed (operand_eq_ok h).2
  case h_10 => cases h
  case h_1 | h_5 | h_6 =>
    obtain ⟨-, hi⟩ := operand_eq_ok h
    cases hi
    rfl

theorem decodeRow_mem {rows : List (List Bit × Instr)} {bits : List Bit} (h : decodeRow rows bits = .ok i) :
    ∃ r ∈ rows, r.2 = i := by
  unfold decodeRow at h
  split at h <;> cases h
  rename_i r hr
  exact ⟨r, List.mem_of_find?_eq_some hr, rfl⟩

/-- A line-code row has no operand, so the encoding admits it. -/
theorem decodeRow_wellFormed {rows : List (List Bit × Instr)} {bits : List Bit}
    (hrows : rows.all (fun r => r.2.wellFormed cfg) = true) (h : decodeRow rows bits = .ok i) : i.WellFormed cfg := by
  obtain ⟨r, hr, rfl⟩ := decodeRow_mem h
  exact List.all_eq_true.mp hrows r hr

theorem decode_wellFormed {hw : HostWord} (h : decode cfg hw = .ok i) : i.WellFormed cfg := by
  cases hw with
  | op w => exact decodeOp_wellFormed h
  | bitrun bits => exact decodeRow_wellFormed (rows := bitrunRows) rfl h
  | morse bits => exact decodeRow_wellFormed (rows := morseRows) rfl h

/-! ### Format V at every width -/

theorem eq_or_eq_of_mem_formatV {c : BitVec 4} (h : c ∈ [0x2#4, 0x4#4]) : c = 0x2#4 ∨ c = 0x4#4 :=
  (List.mem_cons.mp h).imp_right List.mem_singleton.mp

/-- A SAMPLE or SETTHR word whose must-be-zero bits are zero (43_decoder_state_machine.md R166, 45_host_port_ops.md
R190). -/
theorem decodeOp_formatV (hw : cfg.sampleW ≤ 28) (hc : w.extractLsb' 28 4 ∈ [0x2#4, 0x4#4])
    (h0 : w.extractLsb' cfg.sampleW (28 - cfg.sampleW) = 0) :
    ∃ v : Sample, v.toNat = (w.extractLsb' 0 cfg.sampleW).toNat ∧
      decodeOp cfg w = .ok (if w.extractLsb' 28 4 = 0x2#4 then .sample v else .setthr v) := by
  refine ⟨_, sample_operand_toNat hw, ?_⟩
  rcases eq_or_eq_of_mem_formatV hc with h | h
  · rw [decodeOp_sample h, operand_of_unassigned_zero h0, if_pos h]
  · rw [decodeOp_setthr h, operand_of_unassigned_zero h0, h, if_neg (by decide)]

/-- A SAMPLE or SETTHR word with a bit set between its operand and the operation code is reserved (log entry 3). -/
theorem decodeOp_formatV_reserved (hc : w.extractLsb' 28 4 ∈ [0x2#4, 0x4#4])
    (h0 : w.extractLsb' cfg.sampleW (28 - cfg.sampleW) ≠ 0) : decodeOp cfg w = .err .unassignedBit := by
  rcases eq_or_eq_of_mem_formatV hc with h | h
  · rw [decodeOp_sample h, operand_of_unassigned_ne_zero h0]
  · rw [decodeOp_setthr h, operand_of_unassigned_ne_zero h0]

/-- Settles O5: every case of the decoder gives a well-formed instruction, and format V is read at `SAMPLE_W`. -/
theorem decodedWellFormed : Obligations.DecodedWellFormed := by
  refine ⟨fun _ _ _ => decode_wellFormed, fun cfg w => ⟨fun hw hc => ⟨decodeOp_formatV hw hc, fun h0 =>
    ⟨_, decodeOp_formatV_reserved hc h0⟩⟩, fun hc cfg' => ?_⟩⟩
  have hne : ∀ c : BitVec 4, c ∈ [0x2#4, 0x4#4] → field w 31 28 ≠ c.toNat := fun c hm h =>
    hc (BitVec.eq_of_toNat_eq (field_eq_extractLsb' w 31 28 ▸ h) ▸ hm)
  exact decodeOp_cfg_irrelevant cfg cfg' (hne 0x2#4 (by decide)) (hne 0x4#4 (by decide))

end Sys2Proof
end

section
/-! The invariant `State.Inv`: one rule for each operation over the state, the Parser's side conditions bit by bit, legal
responses, and with them O59 (every step keeps it), O60 (it holds at reset), and the reset edge and state, O10 and O11. -/

namespace Sys2Proof.Machine

section
variable {cfg : Cfg} {p : Parser} {r : Rsp}

/-! ### Legal responses -/

theorem errorCode_toNat_le (e : ErrorKind) : (errorCode e).toNat ≤ 4 := by cases e <;> decide

theorem Rsp.legal_empty : ({} : Rsp).Legal := by constructor <;> decide

theorem Rsp.legal_locked : Rsp.locked.Legal := by constructor <;> decide

theorem Rsp.legal_ignoring : Rsp.ignoring.Legal := by constructor <;> decide

theorem Rsp.legal_resolved (y : MorseSymbol) : (Rsp.resolved y).Legal := by
  cases y <;> constructor <;> decide

theorem Rsp.legal_done : (Rsp.resolved .lineBreak).withDone.Legal := by constructor <;> decide

/-- 30_encoding.md R80 bounds no bit of `data`. -/
theorem Rsp.Legal.withData (h : r.Legal) (d : Data) : (r.withData d).Legal := { h with }

/-- An error joins a response that reports neither `lock` nor `done` nor `ignored` (60_exceptions.md R210). -/
theorem Rsp.Legal.withErr (h : r.Legal) (hl : r.lock = false) (hd : r.done = false) (hi : r.ignored = false)
    (e : ErrorKind) : (r.withErr e).Legal where
  done_err := fun h' => by simp [Rsp.withErr, hd] at h'
  done_ignored := h.done_ignored
  err_ignored := fun h' => by simp [Rsp.withErr, hi] at h'
  lock_alone := fun h' => by simp [Rsp.withErr, hl] at h'
  done_sym := h.done_sym
  sym_zero := h.sym_zero
  sym_code := h.sym_code
  err_code := errorCode_toNat_le e

theorem Rsp.legal_err (e : ErrorKind) : (Rsp.withErr {} e).Legal := Rsp.legal_empty.withErr rfl rfl rfl e

theorem Rsp.legal_resolved_err (y : MorseSymbol) (e : ErrorKind) : ((Rsp.resolved y).withErr e).Legal :=
  (Rsp.legal_resolved y).withErr rfl rfl rfl e

theorem encRsp_legal (cfg : Cfg) (c : Byte) : (encRsp cfg c).Legal := by
  unfold encRsp
  split
  · exact Rsp.legal_empty.withData _
  · exact Rsp.legal_err _

theorem decRsp_legal (cfg : Cfg) (q : List MorseSymbol) : (decRsp cfg q).Legal := by
  unfold decRsp
  split
  · exact Rsp.legal_empty.withData _
  · exact Rsp.legal_empty
  · exact Rsp.legal_err _

theorem b2sRsp_legal (cfg : Cfg) (bits : List Bit) : (b2sRsp cfg bits).Legal := by
  unfold b2sRsp
  split
  · exact Rsp.legal_resolved _
  · exact Rsp.legal_err _

/-- One bit has a legal response in every state of the Parser. -/
theorem parserBit_legal (cfg : Cfg) (p : Parser) (b : Bit) : (parserBit cfg p b).2.Legal := by
  obtain ⟨_, -, -, he⟩ | ⟨_, -, -, he⟩ | ⟨_, _, -, -, -, he⟩ | ⟨_, _, -, -, -, he⟩ | ⟨_, _, -, -, -, he⟩ |
    ⟨_, _, y, -, -, -, -, he⟩ | ⟨_, _, y, -, -, -, -, -, he⟩ | ⟨_, _, _, -, -, -, -, -, he⟩ |
    ⟨_, _, e, -, -, -, -, -, -, he⟩ | ⟨_, _, -, he⟩ := parserBit_cases cfg p b <;> rw [he]
  · exact Rsp.legal_empty
  · exact Rsp.legal_locked
  · exact Rsp.legal_empty
  · exact Rsp.legal_err _
  · exact Rsp.legal_err _
  · exact Rsp.legal_resolved_err y _
  · exact Rsp.legal_resolved y
  · exact Rsp.legal_done
  · exact Rsp.legal_resolved_err _ e
  · exact Rsp.legal_ignoring

/-! ### The Parser's side conditions -/

/-- The Start Pattern is not empty, so the empty window is not locked. -/
theorem Parser.inv_fresh (hv : cfg.Valid) : Parser.fresh.Inv cfg :=
  ⟨Nat.zero_le _, fun h => by simpa [Cfg.spLen, ← h] using hv.spLen_pos⟩

/-- One bit keeps the side conditions of 10_state.md R20, row by row of the transition table. -/
theorem parserBit_inv (hv : cfg.Valid) (h : p.Inv cfg) (b : Bit) : (parserBit cfg p b).1.Inv cfg := by
  obtain ⟨win, rfl, hno, he⟩ | ⟨win, rfl, -, he⟩ | ⟨run, seq, rfl, -, hroom, he⟩ | ⟨run, seq, rfl, -, -, he⟩ |
    ⟨run, seq, rfl, -, -, he⟩ | ⟨run, seq, y, rfl, -, -, -, he⟩ | ⟨run, seq, y, rfl, -, -, hl, hy, he⟩ |
    ⟨run, seq, m, rfl, -, -, hl, hp, he⟩ | ⟨run, seq, e, rfl, -, -, -, -, -, he⟩ | ⟨seq, msg, rfl, he⟩ :=
    parserBit_cases cfg p b <;> rw [he]
  · exact fsPush_window hv.spLen_pos h.1 hno
  · exact ⟨hv.bitrunCap_pos, nofun, Nat.zero_le _, nofun⟩
  · obtain ⟨hrun, hhi, hseq, hlb⟩ := h
    exact ⟨by simp; omega, by simpa [or_imp, forall_and] using hhi, hseq, hlb⟩
  · exact Parser.inv_fresh hv
  · exact Parser.inv_fresh hv
  · exact Parser.inv_fresh hv
  · obtain ⟨-, -, hseq, hlb⟩ := h
    exact ⟨hv.bitrunCap_pos, nofun, by simp; omega, by simp [hlb, hy.symm]⟩
  · obtain ⟨-, -, hseq, hlb⟩ := h
    exact ⟨by simp, by simp; omega, by simp, by simpa using hlb, process_length hp, hp⟩
  · exact Parser.inv_fresh hv
  · exact h

end

/-! ### One rule for each operation over the state -/

namespace State.Inv
variable {s : State} (h : s.Inv)
include h

theorem withInputs (l : List HostInput) : (s.withInputs l).Inv := { h with }

theorem withParser {p : Parser} (hp : p.Inv s.cfg) : (s.withParser p).Inv := { h with parser_inv := hp }

theorem withThr {v : Sample} (hv : v.toNat < 2 ^ s.cfg.sampleW) : (s.withThr v).Inv := { h with thr_lt := hv }

theorem respond {r : Rsp} (hr : r.Legal) : (s.respond r).Inv :=
  { h with
    rsp_legal := hr
    trace_legal := List.forall_mem_append.mpr ⟨h.trace_legal, List.forall_mem_singleton.mpr hr⟩
    quiet := nofun }

theorem idle : s.idle.Inv := { h with rsp_legal := Rsp.legal_empty, quiet := fun _ => rfl }

theorem resetCore : s.resetCore.Inv :=
  { h with
    parser_inv := Parser.inv_fresh h.cfg_valid
    rsp_legal := Rsp.legal_empty
    quiet := fun _ => rfl
    thr_lt := h.thrReset_lt }

theorem feedBit (b : Bit) : (s.feedBit b).Inv :=
  (h.withParser (parserBit_inv h.cfg_valid h.parser_inv b)).respond (parserBit_legal _ _ _)

theorem feedSample (v : Sample) : (s.feedSample v).Inv :=
  (h.withParser (parserBit_inv h.cfg_valid h.parser_inv _)).respond ((parserBit_legal _ _ _).withData _)

theorem feedBits (l : List Bit) : (s.feedBits l).Inv :=
  List.foldlRecOn l State.feedBit h.idle fun _ ht b _ => ht.feedBit b

/-- The only operand the invariant depends on is the new threshold of SETTHR. -/
theorem exec {t : State} {i : Instr} (hw : i.WellFormed s.cfg) (he : exec i s = .next t) : t.Inv := by
  obtain ⟨b, -, rfl⟩ | ⟨v, -, rfl⟩ | ⟨-, rfl⟩ | ⟨v, rfl, rfl⟩ | ⟨k, -, rfl⟩ | ⟨c, -, rfl⟩ | ⟨q, -, rfl⟩ | ⟨y, -, rfl⟩ |
    ⟨bits, -, rfl⟩ | ⟨bits, -, rfl⟩ := exec_next_cases he
  · exact h.feedBit b
  · exact h.feedSample v
  · exact (h.withParser (Parser.inv_fresh h.cfg_valid)).respond Rsp.legal_empty
  · exact (h.withThr (of_decide_eq_true hw)).respond Rsp.legal_empty
  · exact h.respond (Rsp.legal_empty.withData _)
  · exact h.respond (encRsp_legal _ c)
  · exact h.respond (decRsp_legal _ q)
  · exact h.respond (Rsp.legal_empty.withData _)
  · exact h.respond (b2sRsp_legal _ bits)
  · exact h.feedBits bits

theorem undecoded (w : HostWord) : (s.undecoded w).Inv := by
  cases w with
  | op w => exact h.respond Rsp.legal_ignoring
  | bitrun bits => exact h.feedBits bits
  | morse bits => exact h.feedBits bits

end State.Inv

/-! ### The step -/

/-- Settles O59: a rule of `State.Inv` for each of the five things an edge can do; a decoded instruction is
well-formed, which keeps `THR` below `2^SAMPLE_W`. -/
theorem stepKeepsInv : Obligations.StepKeepsInv := by
  intro s t h hst
  obtain ⟨-, he⟩ | ⟨i, rest, -, ⟨-, he⟩ | ⟨-, -, he⟩ | ⟨w, ins, -, -, hd, he⟩ | ⟨w, e, -, -, -, he⟩⟩ :=
    step_cases s <;> rw [he] at hst
  case inr.inr.inr.inl => exact (h.withInputs rest).exec (decode_wellFormed hd) hst
  all_goals cases hst
  · exact h.idle
  · exact (h.withInputs rest).resetCore
  · exact (h.withInputs rest).idle
  · exact (h.withInputs rest).undecoded w

/-! ### Reset -/

/-- The default configuration meets 00_scope.md R7. -/
theorem defaultCfg_valid : defaultCfg.Valid where
  spLen_pos := by decide
  len_injective := fun s t => by cases s <;> cases t <;> decide
  len_pos := fun s => by cases s <;> decide
  len_le := fun s => by cases s <;> decide
  bitrunCap_pos := by decide
  bitrunCap_le := by decide
  symseqCap_pos := by decide
  msgCap_pos := by decide
  msgCap_le := by decide
  table_chars := by decide
  table_injective := by decide
  table_rows := by unfold Cfg.RowValid; decide
  table_space := by decide
  table_newline := by decide

/-- Settles O60: the default configuration is valid, the Parser fresh, and nothing has been answered. -/
theorem resetInv : Obligations.ResetInv where
  cfg_valid := defaultCfg_valid
  parser_inv := Parser.inv_fresh defaultCfg_valid
  rsp_legal := Rsp.legal_empty
  trace_legal := nofun
  quiet := fun _ => rfl
  thr_lt := by decide
  thrReset_lt := by decide

theorem msgRead_fresh (i : Byte) : msgRead .fresh i = 0x00#8 := rfl

/-- `rst` wins over whatever command is presented (60_exceptions.md R207). -/
theorem step_of_rst {s : State} {i : HostInput} {rest : List HostInput} (h : s.inputs = i :: rest)
    (hr : i.rst = true) : step s = .next (s.withInputs rest).resetCore := by
  simp only [step, h, hr, if_true]

/-- Settles O10: the edge leads to `State.resetCore`, whose fields are the values of 10_state.md R41. -/
theorem resetEdge : Obligations.ResetEdge := fun _ _ _ h =>
  ⟨_, step_of_rst h rfl, rfl, rfl, msgRead_fresh, rfl, rfl, rfl, rfl⟩

/-- Settles O11: the fields of `State.reset` are the values of 10_state.md R41 at the defaults of 00_scope.md R6. -/
theorem resetState : Obligations.ResetState := ⟨rfl, rfl, rfl, rfl, rfl, rfl, msgRead_fresh⟩

end Sys2Proof.Machine
end

section
/-! The flat registers of 10_state.md R35 and R36: the Parser read back from them, their ranges after a step, and with
them O55 and O56. -/

namespace Sys2Proof.Machine

/-! ### The flat registers of each state -/

@[simp] theorem Parser.flat_waitingForStart (win : List Bit) :
    (Parser.waitingForStart win).flat = ⟨0#2, packBits win, win.length, 0, 0, 0, 0⟩ := rfl

@[simp] theorem Parser.flat_listening (run : List Bit) (seq : List MorseSymbol) :
    (Parser.listening run seq).flat = ⟨1#2, 0, 0, packBits run, run.length, seq.length, 0⟩ := rfl

@[simp] theorem Parser.flat_processing (seq : List MorseSymbol) (msg : List Byte) :
    (Parser.processing seq msg).flat = ⟨2#2, 0, 0, 0, 0, seq.length, msg.length⟩ := rfl

/-! ### The Parser of the flat registers -/

/-- The Parser that flat registers and buffer cells stand for, the converse of `Parser.flat` (10_state.md R36). -/
def Parser.ofFlat (f : FlatRegs) (seq : List MorseSymbol) (msg : List Byte) : Parser :=
  if f.state = 0#2 then .waitingForStart (unpackBits f.winLen f.win)
  else if f.state = 1#2 then .listening (unpackBits f.runLen f.run) seq
  else .processing seq msg

/-- The flat registers and the buffer cells keep everything of a Parser. -/
theorem Parser.ofFlat_flat (p : Parser) : Parser.ofFlat p.flat p.seq p.msg = p := by
  cases p with
  | waitingForStart win => exact congrArg Parser.waitingForStart (unpackBits_packBits win)
  | listening run seq => exact congrArg (Parser.listening · seq) (unpackBits_packBits run)
  | processing seq msg => rfl

theorem Parser.eq_of_flat {p p' : Parser} (hf : p.flat = p'.flat) (hs : p.seq = p'.seq) (hm : p.msg = p'.msg) :
    p = p' := by
  rw [← p.ofFlat_flat, hf, hs, hm, p'.ofFlat_flat]

/-- The lengths are among the flat registers, so those of `fresh()` leave the buffers empty. -/
theorem Parser.eq_fresh_of_flat {p : Parser} (h : p.flat = Parser.fresh.flat) : p = .fresh :=
  Parser.eq_of_flat h (List.eq_nil_of_length_eq_zero (congrArg FlatRegs.seqLen h))
    (List.eq_nil_of_length_eq_zero (congrArg FlatRegs.msgLen h))

/-- Settles O55: `Parser.ofFlat` is a left inverse of the flat view, and a right inverse on each row of R35. -/
theorem flatDeterminesParser : Obligations.FlatDeterminesParser := by
  refine ⟨fun p p' => Parser.eq_of_flat, fun f seq msg hs hm hrow => ⟨.ofFlat f seq msg, ?_⟩,
    fun p => Parser.eq_fresh_of_flat⟩
  obtain ⟨state, win, winLen, run, runLen, seqLen, msgLen⟩ := f
  dsimp only at hs hm hrow
  obtain ⟨rfl, hwin, rfl, rfl, rfl, rfl⟩ | ⟨rfl, rfl, rfl, hrun, rfl⟩ | ⟨rfl, rfl, rfl, rfl, rfl⟩ := hrow
  · have hpack := packBits_unpackBits winLen win hwin
    exact ⟨by simp [Parser.ofFlat, hpack, hs, hm], rfl, rfl⟩
  · have hlt : run < 2 ^ runLen := hrun ▸ Nat.sub_one_lt (Nat.ne_of_gt (Nat.two_pow_pos runLen))
    have hpack := packBits_unpackBits runLen run hlt
    exact ⟨by simp [Parser.ofFlat, hpack, hs, hm], rfl, rfl⟩
  · exact ⟨by simp [Parser.ofFlat, hs, hm], rfl, rfl⟩

/-! ### The ranges -/

/-- Settles O56: the next state meets the invariant (O59), and the side conditions of each Parser state are the row of
10_state.md R35 with its tag. -/
theorem registerRanges : Obligations.RegisterRanges := by
  rintro s t _ _ hs hst rfl rfl
  have hp := (stepKeepsInv s t hs hst).parser_inv
  cases hpar : t.parser with
  | waitingForStart win =>
    rw [hpar] at hp
    obtain ⟨hlen, hne⟩ := hp
    exact .inl ⟨rfl, hlen, fun _ => hne, rfl, rfl, rfl, rfl⟩
  | listening run seq =>
    rw [hpar] at hp
    obtain ⟨hlen, hhi, hseq, hlb⟩ := hp
    exact .inr (.inl ⟨rfl, rfl, rfl, hlen, packBits_hi run hhi, hseq, hlb, rfl⟩)
  | processing seq msg =>
    rw [hpar] at hp
    obtain ⟨hpos, hseq, hlast, hlb, hmsg, -⟩ := hp
    obtain ⟨q, rfl⟩ := List.getLast?_eq_some_iff.mp hlast
    exact .inr (.inr ⟨rfl, rfl, rfl, rfl, rfl, hpos, hseq, ⟨q, rfl, by simpa using hlb⟩, hmsg⟩)

end Sys2Proof.Machine
end

section
/-! The ROMs of 20_memory.md R53 and the operations that only read (R59): what keeps the configuration, what keeps the
Parser, and with them O13 and O46. -/

namespace Sys2Proof.Machine

section
variable {s t : State} {i : Instr}

/-! ### Nothing writes the configuration -/

@[simp] theorem State.feedBits_cfg (s : State) (l : List Bit) : (s.feedBits l).cfg = s.cfg := (s.feedBits_spec l).1

@[simp] theorem State.undecoded_cfg (s : State) (w : HostWord) : (s.undecoded w).cfg = s.cfg := by
  cases w with
  | op w => rfl
  | bitrun bits => exact s.feedBits_cfg bits
  | morse bits => exact s.feedBits_cfg bits

theorem exec_cfg (h : exec i s = .next t) : t.cfg = s.cfg := by
  obtain ⟨b, -, rfl⟩ | ⟨v, -, rfl⟩ | ⟨-, rfl⟩ | ⟨v, -, rfl⟩ | ⟨k, -, rfl⟩ | ⟨c, -, rfl⟩ | ⟨q, -, rfl⟩ | ⟨y, -, rfl⟩ |
    ⟨run, -, rfl⟩ | ⟨bits, -, rfl⟩ := exec_next_cases h
  case inr.inr.inr.inr.inr.inr.inr.inr.inr => exact s.feedBits_cfg bits
  all_goals rfl

theorem step_cfg (h : step s = .next t) : t.cfg = s.cfg := by
  obtain ⟨-, he⟩ | ⟨i, rest, -, ⟨-, he⟩ | ⟨-, -, he⟩ | ⟨w, ins, -, -, -, he⟩ | ⟨w, e, -, -, -, he⟩⟩ :=
    step_cases s <;> rw [he] at h
  case inr.inr.inr.inl => exact (exec_cfg h).trans (s.withInputs_cfg rest)
  all_goals cases h
  · rfl
  · rfl
  · rfl
  · exact State.undecoded_cfg _ w

/-! ### The operations that keep the Parser -/

/-- A read answers by the ROMs and the Parser alone, and does nothing else. -/
theorem exec_read (h : (∃ k, i = .rdmsg k) ∨ (∃ c, i = .enc c) ∨ (∃ q, i = .dec q) ∨ (∃ y, i = .s2b y) ∨
    ∃ r, i = .b2s r) :
    ∃ f : Cfg → Parser → Rsp, ∀ s, exec i s = .next (s.respond (f s.cfg s.parser)) := by
  obtain ⟨k, rfl⟩ | ⟨c, rfl⟩ | ⟨q, rfl⟩ | ⟨y, rfl⟩ | ⟨r, rfl⟩ := h
  · exact ⟨fun _ p => Rsp.withData {} (charData (msgRead p k)), fun _ => rfl⟩
  · exact ⟨fun cfg _ => encRsp cfg c, fun _ => rfl⟩
  · exact ⟨fun cfg _ => decRsp cfg q, fun _ => rfl⟩
  · exact ⟨fun cfg _ => Rsp.withData {} (s2bData (symbolToBits cfg y)), fun _ => rfl⟩
  · exact ⟨fun cfg _ => b2sRsp cfg r, fun _ => rfl⟩

/-- Only BIT, SAMPLE, NEW and the line-code rows write the Parser. -/
theorem exec_parser (hbit : ∀ b, i ≠ .bit b) (hsample : ∀ v, i ≠ .sample v) (hnew : i ≠ .new) (hstart : i ≠ .start)
    (hsym : i.symbol? = none) (hchar : i.charCode? = none) (h : exec i s = .next t) : t.parser = s.parser := by
  obtain ⟨b, hi, -⟩ | ⟨v, hi, -⟩ | ⟨hi, -⟩ | ⟨v, -, rfl⟩ | ⟨k, -, rfl⟩ | ⟨c, -, rfl⟩ | ⟨q, -, rfl⟩ | ⟨y, -, rfl⟩ |
    ⟨run, -, rfl⟩ | ⟨bits, hexp, -⟩ := exec_next_cases h
  case inl => exact absurd hi (hbit b)
  case inr.inl => exact absurd hi (hsample v)
  case inr.inr.inl => exact absurd hi hnew
  case inr.inr.inr.inr.inr.inr.inr.inr.inr =>
    obtain ⟨y, hy, -⟩ | ⟨c, hc, -⟩ | ⟨hi, -⟩ := expansion_isSome hexp
    · rw [hsym] at hy; cases hy
    · rw [hchar] at hc; cases hc
    · exact absurd hi hstart
  all_goals rfl

end

/-- Settles O46: a read is `State.respond` of a function of the ROMs and the Parser (`exec_read`). -/
theorem readsKeepState : Obligations.ReadsKeepState := by
  refine fun s => ⟨fun i hi => ?_, fun i t hbit hsample hnew hstart hsym hchar h =>
    ⟨exec_parser hbit hsample hnew hstart hsym hchar h, exec_cfg h⟩, fun _ => ⟨rfl, rfl⟩, rfl, rfl⟩
  obtain ⟨f, hf⟩ := exec_read hi
  refine ⟨f s.cfg s.parser, _, hf s, rfl, rfl, rfl, fun u hp hc => ?_⟩
  rw [← hp, ← hc]
  exact hf u

/-! ### The forward and the inverse table -/

section
variable {cfg : Cfg} {ch : Byte} {q : List MorseSymbol} (hv : cfg.Valid)
include hv

theorem stEncode_eq_ok_iff : stEncode cfg ch = .ok q ↔ (fold ch, q) ∈ cfg.table :=
  ⟨stEncode_ok_mem, stEncode_of_mem hv⟩

theorem stDecode_eq_some_iff : stDecode cfg q = .ok (some ch) ↔ (ch, q) ∈ cfg.table :=
  ⟨stDecode_some_mem, stDecode_of_mem hv⟩

/-- No row stands under an uppercase letter (00_scope.md R7), so folding keeps the character of a row. -/
theorem fold_of_mem (hm : (ch, q) ∈ cfg.table) : fold ch = ch := by
  have hlower : isUpper ch = false := (hv.table_rows _ hm).1
  simp [fold, hlower]

theorem stDecode_eq_some_iff_stEncode :
    stDecode cfg q = .ok (some ch) ↔ stEncode cfg ch = .ok q ∧ fold ch = ch := by
  rw [stDecode_eq_some_iff hv, stEncode_eq_ok_iff hv]
  constructor
  · intro hm
    have hfold := fold_of_mem hv hm
    exact ⟨hfold.symm ▸ hm, hfold⟩
  · rintro ⟨hm, hfold⟩
    exact hfold ▸ hm

end

/-- Settles O13: no step writes the configuration, and both tables are the rows of one list. -/
theorem romsConstant : Obligations.RomsConstant :=
  ⟨fun _ _ => step_cfg, fun _ hv _ _ => stDecode_eq_some_iff_stEncode hv⟩

end Sys2Proof.Machine
end

section
/-! The command word format by format: the operation each code names, and the encoder against it, O4, with the words written
out at the defaults, O1 and O6. -/

namespace Sys2Proof

section
variable {cfg : Cfg} {w : Word} {c o : Nat}

/-! ### The operation code (30_encoding.md R72) -/

theorem field_code {k : BitVec 4} (h : w.extractLsb' 28 4 = k) : field w 31 28 = k.toNat := by
  rw [field_eq_extractLsb', ← h]

theorem decodeOp_bit (h : w.extractLsb' 28 4 = 0x1#4) :
    decodeOp cfg w = operand w 1 fun b => .ok (.bit (bitOfCode b)) := by
  simp only [decodeOp, field_code h, BitVec.reduceToNat]

theorem decodeOp_new (h : w.extractLsb' 28 4 = 0x3#4) :
    decodeOp cfg w = if field w 27 0 = 0 then .ok .new else .err .unassignedBit := by
  simp only [decodeOp, field_code h, BitVec.reduceToNat]

theorem decodeOp_rdmsg (h : w.extractLsb' 28 4 = 0x5#4) :
    decodeOp cfg w = operand w 8 fun i => .ok (.rdmsg (BitVec.ofNat 8 i)) := by
  simp only [decodeOp, field_code h, BitVec.reduceToNat]

theorem decodeOp_enc (h : w.extractLsb' 28 4 = 0x8#4) :
    decodeOp cfg w = operand w 8 fun c => .ok (.enc (BitVec.ofNat 8 c)) := by
  simp only [decodeOp, field_code h, BitVec.reduceToNat]

theorem decodeOp_dec (h : w.extractLsb' 28 4 = 0x9#4) :
    decodeOp cfg w = operand w 24 fun _ => decodeDec w := by
  simp only [decodeOp, field_code h, BitVec.reduceToNat]

/-- The symbol an S2B word names, or the reserved code (30_encoding.md R75). -/
def decodeS2b (s : Nat) : Result Reserved Instr :=
  match symbolOfCode s with
  | some y => .ok (.s2b y)
  | none => .err .symbolCode

theorem decodeS2b_of_some {s : Nat} {y : MorseSymbol} (h : symbolOfCode s = some y) : decodeS2b s = .ok (.s2b y) := by
  rw [decodeS2b, h]

theorem decodeS2b_of_none {s : Nat} (h : symbolOfCode s = none) : decodeS2b s = .err .symbolCode := by
  rw [decodeS2b, h]

theorem decodeOp_s2b (h : w.extractLsb' 28 4 = 0xA#4) : decodeOp cfg w = operand w 3 decodeS2b := by
  simp only [decodeOp, field_code h, BitVec.reduceToNat] <;> rfl

theorem decodeOp_b2s (h : w.extractLsb' 28 4 = 0xB#4) :
    decodeOp cfg w = operand w 12 fun _ => decodeB2s w := by
  simp only [decodeOp, field_code h, BitVec.reduceToNat]

/-- The seven codes that name no operation (30_encoding.md R89). -/
theorem decodeOp_opcode (h : w.extractLsb' 28 4 ∈ [0x0#4, 0x6#4, 0x7#4, 0xC#4, 0xD#4, 0xE#4, 0xF#4]) :
    decodeOp cfg w = .err .opcode := by
  simp only [List.mem_cons, List.not_mem_nil, or_false] at h
  obtain h | h | h | h | h | h | h := h <;> simp only [decodeOp, field_code h, BitVec.reduceToNat]

/-! ### Decoding what `opWord` made -/

theorem opWord_code_slice (hc : c < 16) (ho : o < 2 ^ 28) :
    (BitVec.ofNat 32 (c * 2 ^ 28 + o)).extractLsb' 28 4 = BitVec.ofNat 4 c := by
  refine BitVec.eq_of_toNat_eq ?_
  rw [BitVec.toNat_ofNat, Nat.mod_eq_of_lt hc]
  exact (field_eq_extractLsb' _ 31 28).symm.trans (field_opWord_code hc ho)

theorem packSymbols_lt_of_length_le {q : List MorseSymbol} (h : q.length ≤ decMaxSymbols) : packSymbols q < 2 ^ 21 :=
  Nat.lt_of_lt_of_le (packSymbols_lt q) (Nat.pow_le_pow_right (n := 8) (j := 7) (by decide) h)

theorem packBits_lt_of_length_le {r : List Bit} (h : r.length ≤ b2sMaxBits) : packBits r < 2 ^ 8 :=
  Nat.lt_of_lt_of_le (packBits_lt r) (Nat.pow_le_pow_right (by decide) h)

/-- A word of format V, read at the width its operand fits. -/
theorem operand_opWord_sample {v : Sample} (hc : c < 16) (hv : v.toNat < 2 ^ cfg.sampleW) (f : Sample → Instr) :
    operand (BitVec.ofNat 32 (c * 2 ^ 28 + v.toNat)) cfg.sampleW (fun n => .ok (f (BitVec.ofNat 28 n))) = .ok (f v) := by
  rw [operand_opWord hc v.isLt hv, BitVec.ofNat_toNat, BitVec.setWidth_eq]

/-- A word of a format whose operand is a byte. -/
theorem operand_opWord_byte {b : Byte} (hc : c < 16) (f : Byte → Instr) :
    operand (BitVec.ofNat 32 (c * 2 ^ 28 + b.toNat)) 8 (fun n => .ok (f (BitVec.ofNat 8 n))) = .ok (f b) := by
  rw [operand_opWord hc (Nat.lt_trans b.isLt (by decide)) b.isLt, BitVec.ofNat_toNat, BitVec.setWidth_eq]

theorem decode_encode_dec {q : List MorseSymbol} (hq : q.length ≤ decMaxSymbols) :
    decode cfg (encode (.dec q)) = .ok (.dec q) := by
  have hl : q.length ≤ 7 := hq
  have hp := packSymbols_lt_of_length_le hq
  have ho : q.length * 2 ^ 21 + packSymbols q < 2 ^ 24 := by omega
  have h28 := Nat.lt_trans ho (by decide : 2 ^ 24 < 2 ^ 28)
  calc decode cfg (encode (.dec q))
    _ = operand _ 24 _ := decodeOp_dec (opWord_code_slice (by decide) h28)
    _ = decodeDec _ := operand_opWord (by decide) h28 ho _
    _ = .ok (.dec q) := decodeDec_opWord ho (by omega) (by omega)

theorem decode_encode_b2s {r : List Bit} (hr : r.length ≤ b2sMaxBits) :
    decode cfg (encode (.b2s r)) = .ok (.b2s r) := by
  have hl : r.length ≤ 8 := hr
  have hp := packBits_lt_of_length_le hr
  have ho : r.length * 2 ^ 8 + packBits r < 2 ^ 12 := by omega
  have h28 := Nat.lt_trans ho (by decide : 2 ^ 12 < 2 ^ 28)
  calc decode cfg (encode (.b2s r))
    _ = operand _ 12 _ := decodeOp_b2s (opWord_code_slice (by decide) h28)
    _ = decodeB2s _ := operand_opWord (by decide) h28 ho _
    _ = .ok (.b2s r) := decodeB2s_opWord ho hr (by omega) (by omega)

theorem decode_encode_s2b (y : MorseSymbol) : decode cfg (encode (.s2b y)) = .ok (.s2b y) := by
  have hy := symbolCode_le y
  have h28 : symbolCode y < 2 ^ 28 := by omega
  calc decode cfg (encode (.s2b y))
    _ = operand _ 3 _ := decodeOp_s2b (opWord_code_slice (by decide) h28)
    _ = decodeS2b (symbolCode y) := operand_opWord (by decide) h28 (by omega) _
    _ = .ok (.s2b y) := decodeS2b_of_some (symbolOfCode_symbolCode y)

end

/-- Settles O4, instruction by instruction: a word made by `opWord` has the code and the operand it is made of, and the
word of a line-code row stands, once, among the rows of its format. -/
theorem decodeEncode : Obligations.DecodeEncode := by
  intro cfg i h
  cases i with
  | bit b => exact Machine.decode_encode_bit cfg b
  | sample v =>
    exact (decodeOp_sample (opWord_code_slice (by decide) v.isLt)).trans
      (operand_opWord_sample (by decide) (of_decide_eq_true h) .sample)
  | new => rfl
  | setthr v =>
    exact (decodeOp_setthr (opWord_code_slice (by decide) v.isLt)).trans
      (operand_opWord_sample (by decide) (of_decide_eq_true h) .setthr)
  | rdmsg k =>
    exact (decodeOp_rdmsg (opWord_code_slice (by decide) (Nat.lt_trans k.isLt (by decide)))).trans
      (operand_opWord_byte (by decide) .rdmsg)
  | enc c =>
    exact (decodeOp_enc (opWord_code_slice (by decide) (Nat.lt_trans c.isLt (by decide)))).trans
      (operand_opWord_byte (by decide) .enc)
  | dec q => exact decode_encode_dec (of_decide_eq_true h)
  | s2b y => exact decode_encode_s2b y
  | b2s r => exact decode_encode_b2s (of_decide_eq_true h)
  | _ => rfl

/-! ### The words at the defaults -/

open Machine

/-- Settles O1: each word is evaluated. -/
theorem decodeWords : Obligations.DecodeWords := by
  unfold Obligations.DecodeWords
  decide

theorem encode_symbolRow {i : Instr} {y : MorseSymbol} (h : i.symbol? = some y) :
    encode i = .bitrun (symbolToBits defaultCfg y) := by
  cases i <;> cases h <;> rfl

/-- The word of a `CHAR` row is the bits of what the Symbol Table answers for its character, which folding keeps. -/
theorem encode_charRow {i : Instr} {c : Byte} (h : i.charCode? = some c) :
    fold c = c ∧ ∃ q, stEncode defaultCfg c = .ok q ∧ encode i = .morse (q.flatMap (symbolToBits defaultCfg)) := by
  cases i <;> cases h <;> exact ⟨rfl, _, rfl, rfl⟩

/-- Settles O6: row by row, the word is what the Timing Codec and the Symbol Table give at the defaults. -/
theorem lineCodeWords : Obligations.LineCodeWords := by
  refine ⟨fun _ _ => encode_symbolRow, rfl, fun i c h => ?_⟩
  obtain ⟨hfold, q, hq, hword⟩ := encode_charRow h
  have hmem := stEncode_ok_mem hq
  rw [hfold] at hmem
  exact ⟨q, hmem, hword⟩

end Sys2Proof
end

section
/-! The step by what the host presents: O7 and O9. -/

namespace Sys2Proof.Machine

section
variable {s t : State} {i : Instr} {w : HostWord} {inp : HostInput} {rest : List HostInput}

/-- A command is decoded and performed at the edge that presents it (30_encoding.md R78). -/
theorem step_of_decoded (hi : s.inputs = inp :: rest) (hr : inp.rst = false) (hc : inp.cmd = some w)
    (hd : decode s.cfg w = .ok i) : step s = exec i (s.withInputs rest) := by
  simp [step, hi, hr, hc, hd]

/-- A word that spells no instruction is answered at the edge that presents it (45_host_port_ops.md R194). -/
theorem step_of_undecoded {e : Reserved} (hi : s.inputs = inp :: rest) (hr : inp.rst = false) (hc : inp.cmd = some w)
    (hd : decode s.cfg w = .err e) : step s = .next ((s.withInputs rest).undecoded w) := by
  simp [step, hi, hr, hc, hd]

/-! ### Nothing but the edge itself takes an input -/

@[simp] theorem State.feedBits_inputs (s : State) (l : List Bit) : (s.feedBits l).inputs = s.inputs := by
  obtain ⟨-, -, h, -⟩ := s.feedBits_spec l
  exact h

@[simp] theorem State.undecoded_inputs (s : State) (w : HostWord) : (s.undecoded w).inputs = s.inputs := by
  cases w with
  | op w => rfl
  | bitrun bits => exact s.feedBits_inputs bits
  | morse bits => exact s.feedBits_inputs bits

theorem exec_inputs (h : exec i s = .next t) : t.inputs = s.inputs := by
  obtain ⟨b, -, rfl⟩ | ⟨v, -, rfl⟩ | ⟨-, rfl⟩ | ⟨v, -, rfl⟩ | ⟨k, -, rfl⟩ | ⟨c, -, rfl⟩ | ⟨q, -, rfl⟩ | ⟨y, -, rfl⟩ |
    ⟨run, -, rfl⟩ | ⟨bits, -, rfl⟩ := exec_next_cases h
  case inr.inr.inr.inr.inr.inr.inr.inr.inr => exact s.feedBits_inputs bits
  all_goals rfl

end

/-- Settles O7: `step_of_decoded`. -/
theorem stepRunsDecoded : Obligations.StepRunsDecoded := fun _ _ _ _ _ => step_of_decoded

/-- Settles O9: the edge takes the first input, and what it then does keeps the others. -/
theorem inputsConsumed : Obligations.InputsConsumed := by
  intro s t h
  obtain ⟨hi, he⟩ | ⟨i, rest, hi, ⟨-, he⟩ | ⟨-, -, he⟩ | ⟨w, ins, -, -, -, he⟩ | ⟨w, e, -, -, -, he⟩⟩ :=
    step_cases s <;> rw [he] at h <;> rw [hi, List.tail]
  case inr.inr.inr.inl => exact exec_inputs h
  all_goals cases h
  · exact hi
  · rfl
  · rfl
  · exact State.undecoded_inputs _ w

end Sys2Proof.Machine
end

section
/-! The operands of a command word, slice by slice, and which words spell no instruction: O2 and O3. -/

namespace Sys2Proof

section
variable {cfg : Cfg} {w : Word} {n m : Nat} {k : Nat → Result Reserved Instr}

/-! ### Slices of the word -/

/-- Bit `j` of a word, in the arithmetic of the packings (30_encoding.md R77, BIT and B2S). -/
theorem bitOfCode_getLsbD {v : Nat} (x : BitVec v) (j : Nat) :
    bitOfCode (x.toNat / 2 ^ j % 2) = if x.getLsbD j then .hi else .lo := by
  simp [bitOfCode, BitVec.getLsbD, Nat.testBit_eq_decide_div_mod_eq]

theorem bitOfCode_slice (w : Word) : bitOfCode (w.extractLsb' 0 1).toNat = if w.getLsbD 0 then .hi else .lo := by
  rw [← bitOfCode_getLsbD, BitVec.extractLsb'_toNat, Nat.shiftRight_zero, Nat.pow_zero, Nat.div_one, Nat.pow_one]

/-- Bit `j` of the run of a B2S word (30_encoding.md R77). -/
theorem bitOfCode_field {j : Nat} (h : j < 8) :
    bitOfCode (field w 7 0 / 2 ^ j % 2) = if w.getLsbD j then .hi else .lo := by
  rw [field_eq_extractLsb', bitOfCode_getLsbD, BitVec.getLsbD_extractLsb', Nat.zero_add, decide_eq_true h, Bool.true_and]

/-- Slot `j` of a DEC word (30_encoding.md R77); the length field stands above the seven slots. -/
theorem field_slot {j : Nat} (h : j < 7) : field w 20 0 / 8 ^ j % 8 = (w.extractLsb' (3 * j) 3).toNat := by
  have hsplit : 8 ^ 7 = 8 ^ j * 8 ^ (7 - j) := by rw [← Nat.pow_add, Nat.add_sub_cancel' (Nat.le_of_lt h)]
  have hpow : 2 ^ (20 + 1 - 0) = 8 ^ j * 8 ^ (7 - j) := hsplit
  have hone : 1 ≤ 7 - j := by omega
  have hdvd : 8 ^ 1 ∣ 8 ^ (7 - j) := Nat.pow_dvd_pow 8 hone
  rw [Nat.pow_one] at hdvd
  rw [field, Nat.pow_zero, Nat.div_one, hpow, Nat.mod_mul_right_div_self, Nat.mod_mod_of_dvd _ hdvd,
    BitVec.extractLsb'_toNat, Nat.shiftRight_eq_div_pow, Nat.pow_mul]

theorem field_decLength (w : Word) : field w 23 21 = (w.extractLsb' 21 3).toNat := field_eq_extractLsb' w 23 21

theorem field_b2sLength (w : Word) : field w 11 8 = (w.extractLsb' 8 4).toNat := field_eq_extractLsb' w 11 8

theorem lt_seven_of_lt_decLength {j : Nat} (h : j < (w.extractLsb' 21 3).toNat) : j < 7 :=
  Nat.lt_of_lt_of_le h (Nat.le_of_lt_succ (w.extractLsb' 21 3).isLt)

/-! ### The operand, with the `m` bits that must be zero above its `n` bits -/

theorem operand_of_slice_zero (hm : n + m = 28) (h : w.extractLsb' n m = 0#m) :
    operand w n k = k (w.extractLsb' 0 n).toNat := by
  obtain rfl : m = 28 - n := by omega
  rw [operand_of_unassigned_zero h, field_mod w (by omega)]

theorem operand_rejects_iff (hm : n + m = 28) : (∃ e, operand w n k = .err e) ↔
    w.extractLsb' n m ≠ 0#m ∨ ∃ e, k (w.extractLsb' 0 n).toNat = .err e := by
  by_cases h : w.extractLsb' n m = 0#m
  · simp [operand_of_slice_zero hm h, h]
  · obtain rfl : m = 28 - n := by omega
    exact iff_of_true ⟨_, operand_of_unassigned_ne_zero h⟩ (.inl h)

theorem decodeOp_new_rejects_iff (hc : w.extractLsb' 28 4 = 0x3#4) : (∃ e, decodeOp cfg w = .err e) ↔
    w.extractLsb' 0 28 ≠ 0#28 := by
  have h0 : field w 27 0 = 0 ↔ w.extractLsb' 0 28 = 0#28 := field_27_eq_zero_iff
  rw [decodeOp_new hc, ne_eq, ← h0]
  by_cases h : field w 27 0 = 0 <;> simp [h]

/-! ### Formats Y, R and Q -/

theorem decodeS2b_of_symbolCode {s : Nat} {y : MorseSymbol} (h : symbolCode y = s) : decodeS2b s = .ok (.s2b y) :=
  decodeS2b_of_some (symbolOfCode_eq_some.mpr h.symm)

theorem decodeS2b_rejects_iff {s : Nat} : (∃ e, decodeS2b s = .err e) ↔ 4 < s := by
  rw [← symbolOfCode_eq_none]
  cases h : symbolOfCode s with
  | some y => simp [decodeS2b_of_some h]
  | none => simp [decodeS2b_of_none h]

theorem decodeB2s_of_le (h : (w.extractLsb' 8 4).toNat ≤ 8) :
    ∃ r, decodeB2s w = .ok (.b2s r) ∧ r.length = (w.extractLsb' 8 4).toNat ∧
      ∀ j < r.length, r[j]? = some (if w.getLsbD j then .hi else .lo) := by
  rw [← field_b2sLength] at h ⊢
  refine ⟨_, if_pos h, unpackBits_length _ _, fun j hj => ?_⟩
  rw [unpackBits_length] at hj
  rw [unpackBits_getElem? _ _ _ hj, bitOfCode_field (Nat.lt_of_lt_of_le hj h)]

theorem decodeB2s_rejects_iff : (∃ e, decodeB2s w = .err e) ↔ 8 < (w.extractLsb' 8 4).toNat := by
  by_cases h : (w.extractLsb' 8 4).toNat ≤ 8
  · obtain ⟨r, hr, -⟩ := decodeB2s_of_le h
    exact iff_of_false (by simp [hr]) (Nat.not_lt_of_le h)
  · rw [← field_b2sLength] at h ⊢
    exact iff_of_true ⟨_, if_neg h⟩ (Nat.lt_of_not_le h)

theorem unpackSymbols_slots_eq_none : unpackSymbols (field w 23 21) (field w 20 0) = none ↔
    ∃ j < (w.extractLsb' 21 3).toNat, 4 < (w.extractLsb' (3 * j) 3).toNat := by
  rw [unpackSymbols_eq_none, field_decLength]
  refine exists_congr fun j => and_congr_right fun hj => ?_
  rw [field_slot (lt_seven_of_lt_decLength hj)]

theorem decodeDec_rejects_iff : (∃ e, decodeDec w = .err e) ↔
    ∃ j < (w.extractLsb' 21 3).toNat, 4 < (w.extractLsb' (3 * j) 3).toNat := by
  rw [← unpackSymbols_slots_eq_none, decodeDec]
  cases unpackSymbols (field w 23 21) (field w 20 0) <;> simp

theorem decodeDec_of_symbols (h : ∀ j < (w.extractLsb' 21 3).toNat, (w.extractLsb' (3 * j) 3).toNat ≤ 4) :
    ∃ q, decodeDec w = .ok (.dec q) ∧ q.length = (w.extractLsb' 21 3).toNat ∧
      ∀ j < q.length, q[j]?.map symbolCode = some (w.extractLsb' (3 * j) 3).toNat := by
  cases hq : unpackSymbols (field w 23 21) (field w 20 0) with
  | none =>
    obtain ⟨j, hj, hlt⟩ := unpackSymbols_slots_eq_none.mp hq
    exact absurd (h j hj) (Nat.not_le_of_lt hlt)
  | some q =>
    obtain ⟨hlen, hslot⟩ := unpackSymbols_eq_some.mp hq
    rw [field_decLength] at hlen hslot
    refine ⟨q, by rw [decodeDec, hq], hlen, fun j hj => ?_⟩
    rw [hlen] at hj
    rw [hslot j hj, field_slot (lt_seven_of_lt_decLength hj)]

/-! ### Every operation code -/

/-- The nine operations and the reserved codes (30_encoding.md R72). -/
theorem opcode_cases (c : BitVec 4) : c = 0x1#4 ∨ c = 0x2#4 ∨ c = 0x3#4 ∨ c = 0x4#4 ∨ c = 0x5#4 ∨ c = 0x8#4 ∨ c = 0x9#4 ∨
    c = 0xA#4 ∨ c = 0xB#4 ∨ c ∈ [0x0#4, 0x6#4, 0x7#4, 0xC#4, 0xD#4, 0xE#4, 0xF#4] := by
  revert c; decide

end

/-- Settles O2: each format's operand is a slice of the word (`operand_of_slice_zero`), and the slots and run bits in use
are slices of the operand. -/
theorem operandFields : Obligations.OperandFields := by
  intro cfg w
  refine ⟨fun hc h0 => ?_, fun hc hw h0 => ?_, fun hc hw h0 => ?_, fun hc h0 => ?_, fun hc h0 => ?_, fun hc h0 => ?_,
    fun hc h0 => ?_, fun hc h0 => ?_⟩ <;> rw [decode]
  · rw [decodeOp_bit hc, operand_of_slice_zero rfl h0, bitOfCode_slice]
  · rw [decodeOp_sample hc, hw, operand_of_slice_zero rfl h0, BitVec.ofNat_toNat]
  · rw [decodeOp_setthr hc, hw, operand_of_slice_zero rfl h0, BitVec.ofNat_toNat]
  · rw [decodeOp_rdmsg hc, operand_of_slice_zero rfl h0, BitVec.ofNat_toNat, BitVec.setWidth_eq]
  · rw [decodeOp_enc hc, operand_of_slice_zero rfl h0, BitVec.ofNat_toNat, BitVec.setWidth_eq]
  · rw [decodeOp_s2b hc, operand_of_slice_zero rfl h0]
    exact ⟨fun y => decodeS2b_of_symbolCode, decodeS2b_rejects_iff.mpr⟩
  · rw [decodeOp_b2s hc, operand_of_slice_zero rfl h0]
    exact ⟨decodeB2s_rejects_iff.mpr, decodeB2s_of_le⟩
  · rw [decodeOp_dec hc, operand_of_slice_zero rfl h0]
    exact ⟨decodeDec_rejects_iff.mpr, decodeDec_of_symbols⟩

open Machine

/-- Settles O3: code by code, what the format's operand rejects; and the edge is `State.respond` of the ignored response. -/
theorem reservedEncodings : Obligations.ReservedEncodings := by
  refine fun w => ⟨fun cfg hw => ?_, fun s e rest hd hi => step_of_undecoded hi rfl rfl hd⟩
  rw [decode]
  rcases opcode_cases (w.extractLsb' 28 4) with hc | hc | hc | hc | hc | hc | hc | hc | hc | hc
  · simp [hc, decodeOp_bit hc, operand_rejects_iff (show 1 + 27 = 28 from rfl)]
  · simp [hc, decodeOp_sample hc, hw, operand_rejects_iff (show 12 + 16 = 28 from rfl)]
  · simp [hc, decodeOp_new_rejects_iff hc]
  · simp [hc, decodeOp_setthr hc, hw, operand_rejects_iff (show 12 + 16 = 28 from rfl)]
  · simp [hc, decodeOp_rdmsg hc, operand_rejects_iff (show 8 + 20 = 28 from rfl)]
  · simp [hc, decodeOp_enc hc, operand_rejects_iff (show 8 + 20 = 28 from rfl)]
  · simp [hc, decodeOp_dec hc, operand_rejects_iff (show 24 + 4 = 28 from rfl), decodeDec_rejects_iff]
  · simp [hc, decodeOp_s2b hc, operand_rejects_iff (show 3 + 25 = 28 from rfl), decodeS2b_rejects_iff]
  · simp [hc, decodeOp_b2s hc, operand_rejects_iff (show 12 + 16 = 28 from rfl), decodeB2s_rejects_iff]
  · exact iff_of_true ⟨_, decodeOp_opcode hc⟩ (.inl hc)

end Sys2Proof
end

section
/-! The responses of one instruction: how many there are, O45, and which combinations of fields they have, O44. -/

namespace Sys2Proof.Machine

section
variable {s t : State} {i : Instr}

/-- A command of the port, the nine operations of 30_encoding.md R72, has no expansion. -/
theorem expansion_eq_none {cfg : Cfg} (hsym : i.symbol? = none) (hchar : i.charCode? = none) (hstart : i ≠ .start) :
    expansion cfg i = none := by
  simp only [expansion, hsym, hchar, if_neg hstart]

theorem State.feedBits_trace (s : State) (l : List Bit) :
    (s.feedBits l).trace = s.trace ++ (parserBits s.cfg s.parser l).2 := by
  obtain ⟨-, -, -, -, h, -⟩ := s.feedBits_spec l
  exact h

/-- An instruction only adds responses, and each has a legal combination of fields (30_encoding.md R80). -/
theorem exec_trace_legal (h : exec i s = .next t) : ∃ rs, t.trace = s.trace ++ rs ∧ ∀ r ∈ rs, r.Legal := by
  obtain ⟨b, -, rfl⟩ | ⟨v, -, rfl⟩ | ⟨-, rfl⟩ | ⟨v, -, rfl⟩ | ⟨k, -, rfl⟩ | ⟨c, -, rfl⟩ | ⟨q, -, rfl⟩ | ⟨y, -, rfl⟩ |
    ⟨run, -, rfl⟩ | ⟨bits, -, rfl⟩ := exec_next_cases h
  case inr.inr.inr.inr.inr.inr.inr.inr.inr =>
    exact ⟨_, s.feedBits_trace bits, parserBits_forall s.cfg (parserBit_legal s.cfg) bits s.parser⟩
  all_goals refine ⟨_, rfl, List.forall_mem_singleton.mpr ?_⟩
  · exact parserBit_legal _ _ b
  · exact (parserBit_legal _ _ _).withData _
  · exact Rsp.legal_empty
  · exact Rsp.legal_empty
  · exact Rsp.legal_empty.withData _
  · exact encRsp_legal _ c
  · exact decRsp_legal _ q
  · exact Rsp.legal_empty.withData _
  · exact b2sRsp_legal _ run

/-- An UnknownSequence, and a FullBuffer of a `Lo`, are raised after the run has resolved to a symbol
(43_decoder_state_machine.md R150, 60_exceptions.md R201). -/
theorem parserBit_symValid (cfg : Cfg) (p : Parser) (b : Bit)
    (h : (parserBit cfg p b).2.err = 3#3 ∨ ((parserBit cfg p b).2.err = 4#3 ∧ b = .lo)) :
    (parserBit cfg p b).2.symValid = true := by
  obtain ⟨_, -, -, he⟩ | ⟨_, -, -, he⟩ | ⟨_, _, -, rfl, -, he⟩ | ⟨_, _, -, rfl, -, he⟩ | ⟨_, _, -, rfl, -, he⟩ |
    ⟨_, _, y, -, -, -, -, he⟩ | ⟨_, _, y, -, -, -, -, -, he⟩ | ⟨_, _, _, -, -, -, -, -, he⟩ |
    ⟨_, _, e, -, -, -, -, -, -, he⟩ | ⟨_, _, -, he⟩ := parserBit_cases cfg p b <;> rw [he] at h ⊢
  case inr.inr.inr.inr.inr.inl | inr.inr.inr.inr.inr.inr.inl | inr.inr.inr.inr.inr.inr.inr.inl |
    inr.inr.inr.inr.inr.inr.inr.inr.inl => rfl
  all_goals simp [errorEntry, Rsp.withErr, errorCode, Rsp.locked, Rsp.ignoring] at h

end

/-- Settles O44: the responses an instruction adds (`exec_trace_legal`), and those of one bit (`parserBit_symValid`). -/
theorem responseLegal : Obligations.ResponseLegal := by
  refine fun s t i h => ⟨?_, ?_, ?_⟩
  · obtain ⟨rs, htrace, hlegal⟩ := exec_trace_legal h
    rwa [htrace, List.drop_left]
  · rintro b rfl herr
    obtain rfl : s.feedBit b = t := Host.Outcome.next.inj h
    exact parserBit_symValid _ _ b herr
  · rintro v rfl herr
    obtain rfl : s.feedSample v = t := Host.Outcome.next.inj h
    exact parserBit_symValid _ _ _ herr

/-- Settles O45: each of the nine operations ends in one `State.respond`. -/
theorem oneResponse : Obligations.OneResponse := by
  intro s t i hsym hchar hstart h
  obtain ⟨b, -, rfl⟩ | ⟨v, -, rfl⟩ | ⟨-, rfl⟩ | ⟨v, -, rfl⟩ | ⟨k, -, rfl⟩ | ⟨c, -, rfl⟩ | ⟨q, -, rfl⟩ | ⟨y, -, rfl⟩ |
    ⟨run, -, rfl⟩ | ⟨bits, hexp, -⟩ := exec_next_cases h
  case inr.inr.inr.inr.inr.inr.inr.inr.inr =>
    rw [expansion_eq_none hsym hchar hstart] at hexp
    cases hexp
  all_goals exact ⟨rfl, rfl⟩

end Sys2Proof.Machine
end

section
/-! The line-code rows of 30_encoding.md R92: as bits of their expansion, O49 and O50, and what they do from lock on, O51
(SYM), O52 (START) and O53 (CHAR). -/

namespace Sys2Proof.Machine

section
variable {s : State} {cfg : Cfg} {i : Instr} {y : MorseSymbol} {seq : List MorseSymbol}

/-! ### The expansions -/

theorem charBits_of_ok {c : Byte} {q : List MorseSymbol} (h : stEncode cfg c = .ok q) :
    charBits cfg c = (q ++ [MorseSymbol.charBreak]).flatMap (symbolToBits cfg) := by
  rw [charBits, h]

theorem charBits_of_err {c : Byte} {e : ErrorKind} (h : stEncode cfg c = .err e) : charBits cfg c = [] := by
  rw [charBits, h]

theorem State.withInputs_self (s : State) : s.withInputs s.inputs = s := rfl

@[simp] theorem State.feedBits_thr (s : State) (l : List Bit) : (s.feedBits l).thr = s.thr := by
  obtain ⟨-, h, -⟩ := s.feedBits_spec l
  exact h

theorem State.feedBits_eq_foldl {l : List Bit} (h : l ≠ []) : s.feedBits l = l.foldl State.feedBit s := by
  cases l with
  | nil => exact absurd rfl h
  | cons b l => rfl

/-- Bits in two parts; where the second is not empty, nothing of an idle edge is left of the first. -/
theorem State.feedBits_append (l : List Bit) {l' : List Bit} (h : l' ≠ []) :
    s.feedBits (l ++ l') = (s.feedBits l).feedBits l' := by
  rw [State.feedBits_eq_foldl h, State.feedBits, State.feedBits, List.foldl_append]

theorem symbolToBits_ne_nil (cfg : Cfg) (y : MorseSymbol) : symbolToBits cfg y ≠ [] :=
  List.append_ne_nil_of_right_ne_nil _ (List.cons_ne_nil _ _)

/-! ### One symbol at a symbol boundary -/

theorem bitsToSymbol_symbolToBits (hv : cfg.Valid) (y : MorseSymbol) : bitsToSymbol cfg (symbolToBits cfg y) = .ok y :=
  bitsToSymbol_of_len hv (fun _ hb => List.eq_of_mem_replicate hb) (by
    rw [List.length_replicate, Nat.sub_add_cancel (hv.len_pos y)])

/-- The machine after the bits of one symbol: all-zero responses, then what the last bit does. -/
theorem State.feedBits_symbol (hv : s.cfg.Valid) (hp : s.parser = .listening [] seq) (y : MorseSymbol) :
    (s.feedBits (symbolToBits s.cfg y)).parser = (bitLo s.cfg (symbolToBits s.cfg y) seq).1 ∧
    (s.feedBits (symbolToBits s.cfg y)).rsp = (bitLo s.cfg (symbolToBits s.cfg y) seq).2 ∧
    (s.feedBits (symbolToBits s.cfg y)).trace = s.trace ++ List.replicate (s.cfg.len y - 1) ({} : Rsp) ++
      [(s.feedBits (symbolToBits s.cfg y)).rsp] ∧
    (s.feedBits (symbolToBits s.cfg y)).thr = s.thr := by
  obtain ⟨-, hthr, -, hpar, htr, -, hrsp⟩ := s.feedBits_spec (symbolToBits s.cfg y)
  rw [hp, parserBits_symbol hv] at hpar htr hrsp
  rw [List.getLastD_concat] at hrsp
  refine ⟨hpar, hrsp, ?_, hthr⟩
  rw [htr, hrsp, List.append_assoc]

theorem bitLo_symbolToBits_full (hv : cfg.Valid) (hl : seq.length = cfg.symseqCap) :
    bitLo cfg (symbolToBits cfg y) seq = (.fresh, (Rsp.resolved y).withErr .fullBuffer) :=
  bitLo_full (bitsToSymbol_symbolToBits hv y) hl

theorem bitLo_symbolToBits_room (hv : cfg.Valid) (hl : seq.length < cfg.symseqCap) (hy : y ≠ .lineBreak) :
    bitLo cfg (symbolToBits cfg y) seq = (.listening [] (seq ++ [y]), .resolved y) :=
  bitLo_symbol (bitsToSymbol_symbolToBits hv y) (Nat.ne_of_lt hl) hy

theorem bitLo_symbolToBits_lineBreak (hv : cfg.Valid) (hl : seq.length < cfg.symseqCap) :
    bitLo cfg (symbolToBits cfg .lineBreak) seq = finishMessage cfg (seq ++ [.lineBreak]) :=
  bitLo_lineBreak (bitsToSymbol_symbolToBits hv .lineBreak) (Nat.ne_of_lt hl)

/-- A symbol other than `LineBreak`, with room in the sequence (43_decoder_state_machine.md R155). -/
theorem State.feedBits_symbol_room (hc : s.cfg = cfg) (hv : cfg.Valid) (hp : s.parser = .listening [] seq)
    (hl : seq.length < cfg.symseqCap) (hy : y ≠ .lineBreak) :
    (s.feedBits (symbolToBits cfg y)).parser = .listening [] (seq ++ [y]) ∧
    (s.feedBits (symbolToBits cfg y)).rsp = .resolved y := by
  subst hc
  obtain ⟨hpar, hrsp, -, -⟩ := State.feedBits_symbol hv hp y
  rw [hpar, hrsp, bitLo_symbolToBits_room hv hl hy]
  exact ⟨rfl, rfl⟩

/-! ### The symbols of a character -/

/-- Symbols other than `LineBreak` that fit the sequence are appended to it. -/
theorem parserBits_symbols (hv : cfg.Valid) : ∀ (q seq : List MorseSymbol), .lineBreak ∉ q →
    seq.length + q.length ≤ cfg.symseqCap →
    (parserBits cfg (.listening [] seq) (q.flatMap (symbolToBits cfg))).1 = .listening [] (seq ++ q)
  | [], seq, _, _ => by rw [List.append_nil]; rfl
  | y :: q, seq, hlb, hlen => by
    rw [List.length_cons] at hlen
    rw [List.mem_cons, not_or] at hlb
    obtain ⟨hy, hq⟩ := hlb
    have hroom : seq.length < cfg.symseqCap := by omega
    have ih := parserBits_symbols hv q (seq ++ [y]) hq (by rw [List.length_append, List.length_singleton]; omega)
    rw [List.flatMap_cons, parserBits_append, parserBits_symbol hv, bitLo_symbolToBits_room hv hroom (Ne.symm hy), ih,
      List.append_assoc, List.singleton_append]

/-- Bits given to a machine that holds a message: the last answer is `ignored` (43_decoder_state_machine.md R164). -/
theorem State.feedBits_processing {msg : List Byte} {l : List Bit} (hp : s.parser = .processing seq msg) (hl : l ≠ []) :
    (s.feedBits l).parser = .processing seq msg ∧ (s.feedBits l).rsp = .ignoring := by
  obtain ⟨-, -, -, hpar, -, -, hrsp⟩ := s.feedBits_spec l
  rw [hp, parserBits_processing] at hpar hrsp
  obtain ⟨b, l, rfl⟩ := List.exists_cons_of_ne_nil hl
  rw [List.length_cons, List.replicate_succ', List.getLastD_concat] at hrsp
  exact ⟨hpar, hrsp⟩

/-! ### The Start Pattern from an empty window -/

theorem fsPush_of_short {win : List Bit} (b : Bit) (h : win.length + 1 < cfg.spLen) :
    fsPush cfg win b = (win ++ [b], false) := by
  obtain ⟨w, ⟨-, rfl⟩ | ⟨hle, -⟩, ⟨heq, -⟩ | ⟨-, he⟩⟩ := fsPush_cases cfg win b
  · simp [Cfg.spLen, ← heq] at h
  · exact he
  all_goals omega

theorem fsPush_of_eq_sp {win : List Bit} {b : Bit} (h : win ++ [b] = cfg.sp) : fsPush cfg win b = ([], true) := by
  have hlen : win.length + 1 = cfg.spLen := by simp [Cfg.spLen, ← h]
  obtain ⟨w, ⟨-, rfl⟩ | ⟨hle, -⟩, ⟨-, he⟩ | ⟨hne, -⟩⟩ := fsPush_cases cfg win b
  · exact he
  · exact absurd h hne
  all_goals omega

/-- Fewer bits than the Start Pattern has fill the window and do not lock. -/
theorem fsStream_of_short : ∀ (l win : List Bit), win.length + l.length < cfg.spLen →
    fsStream cfg win l = (win ++ l, List.replicate l.length false)
  | [], win, _ => by simp [fsStream]
  | b :: l, win, h => by
    rw [List.length_cons] at h
    have ih := fsStream_of_short l (win ++ [b]) (by rw [List.length_append, List.length_singleton]; omega)
    simp [fsStream, fsPush_of_short b (by omega : win.length + 1 < cfg.spLen), ih, List.replicate_succ]

/-- The Start Pattern locks a fresh Parser at its last bit and at no other (42_frame_synchronizer.md R140). -/
theorem parserBits_sp (hv : cfg.Valid) : parserBits cfg .fresh cfg.sp =
    (.listening [] [], List.replicate (cfg.spLen - 1) ({} : Rsp) ++ [.locked]) := by
  obtain ⟨l, b, hsp⟩ := (List.eq_nil_or_concat cfg.sp).resolve_left (List.ne_nil_of_length_pos hv.spLen_pos)
  rw [List.concat_eq_append] at hsp
  have hlen : cfg.spLen = l.length + 1 := by simp [Cfg.spLen, hsp]
  have hstream := fsStream_of_short (cfg := cfg) l [] (by simp [hlen])
  have hwait := parserBits_waiting cfg l [] (by rw [hstream]; exact fun _ => List.eq_of_mem_replicate)
  rw [hstream] at hwait
  rw [hsp, parserBits_append, Parser.fresh, hwait, hlen]
  simp [parserBits, parserBit, bitWaiting, fsPush_of_eq_sp hsp.symm]

end

/-- Settles O49: a row runs the bits of its expansion (`exec_expansion`). -/
theorem lineCodeExpands : Obligations.LineCodeExpands := by
  refine fun s => ⟨fun i y h => exec_expansion (expansion_symbol h), exec_expansion rfl, fun i c q hc hq => ?_,
    fun i c e hc he => ?_⟩
  · rw [exec_expansion (expansion_char hc), charBits_of_ok hq]
    rfl
  · rw [exec_expansion (expansion_char hc), charBits_of_err he]
    rfl

/-- Settles O50: both sides are the fold of the bits, on the left from the state with the script in front of its
inputs (`run_scriptBits`). -/
theorem expansionRefines : Obligations.ExpansionRefines := by
  intro s i bits hexp hne
  obtain ⟨-, -, hin, -⟩ := foldl_feedBit bits s
  have hself : (bits.foldl State.feedBit s).withInputs s.inputs = bits.foldl State.feedBit s := by
    rw [← hin, State.withInputs_self]
  rw [exec_expansion hexp, State.feedBits_eq_foldl hne]
  exact (run_scriptBits bits s s.inputs).trans (congrArg Host.Outcome.next hself)

/-- Settles O51: the row is its symbol's bits, and its last bit is `bitLo` of the completed run. -/
theorem symRows : Obligations.SymRows := by
  intro s i y seq hsym hv hp
  obtain ⟨hpar, hrsp, htrace, hthr⟩ := State.feedBits_symbol hv hp y
  refine ⟨_, exec_expansion (expansion_symbol hsym), htrace, hthr, fun hl => ?_, fun hl hy => ?_, fun hl hy => ?_⟩ <;>
    rw [hpar, hrsp]
  · rw [bitLo_symbolToBits_full hv hl]
    exact ⟨rfl, rfl⟩
  · rw [bitLo_symbolToBits_room hv hl hy]
    exact ⟨rfl, rfl⟩
  · subst hy
    rw [bitLo_symbolToBits_lineBreak hv hl]
    constructor
    · intro m hm
      rw [finishMessage_ok hm]
      exact ⟨rfl, rfl⟩
    · intro e he
      rw [finishMessage_err he]
      exact ⟨rfl, rfl⟩

/-- Settles O52: `parserBits_sp`. -/
theorem startRow : Obligations.StartRow := by
  intro s hv hp
  obtain ⟨-, hthr, -, hpar, htrace, -, hrsp⟩ := s.feedBits_spec s.cfg.sp
  rw [hp, parserBits_sp hv] at hpar htrace hrsp
  rw [List.getLastD_concat] at hrsp
  exact ⟨_, exec_expansion rfl, hpar, hrsp, htrace.trans (List.append_assoc _ _ _).symm, hthr⟩

/-- A `CHAR` row is the bits of its table sequence, then those of a `CharBreak` (30_encoding.md R92). -/
theorem exec_charRow {s : State} {i : Instr} {c : Byte} {q : List MorseSymbol} (hv : s.cfg.Valid)
    (hchar : i.charCode? = some c) (hm : (c, q) ∈ s.cfg.table) :
    exec i s = .next ((s.feedBits (q.flatMap (symbolToBits s.cfg))).feedBits (symbolToBits s.cfg .charBreak)) := by
  have hq : stEncode s.cfg c = .ok q := (stEncode_eq_ok_iff hv).mpr ((fold_of_mem hv hm).symm ▸ hm)
  rw [exec_expansion (expansion_char hchar), charBits_of_ok hq, List.flatMap_append, List.flatMap_singleton,
    State.feedBits_append _ (symbolToBits_ne_nil _ _)]

/-- Settles O53: after the bits of the table sequence, the `CharBreak` is appended by a machine still listening and
ignored by one that holds a message. -/
theorem charRows : Obligations.CharRows := by
  intro s i c q seq hchar hv hm hp
  refine ⟨fun hc hlen => ⟨_, exec_charRow hv hchar hm, ?_⟩, fun hc hl m hproc => ⟨_, exec_charRow hv hchar hm, ?_⟩⟩
  · obtain ⟨hcfg, -, -, hpar, -⟩ := s.feedBits_spec (q.flatMap (symbolToBits s.cfg))
    rw [hp, parserBits_symbols hv q seq (row_no_lineBreak hv hm hc) (by omega)] at hpar
    obtain ⟨hpar', hrsp'⟩ := State.feedBits_symbol_room (y := .charBreak) hcfg hv hpar
      (by rw [List.length_append]; omega) (by decide)
    exact ⟨hpar', hrsp', by rw [State.feedBits_thr, State.feedBits_thr]⟩
  · obtain ⟨-, -, hnewline, -⟩ := hv.table_rows _ hm
    obtain rfl := hnewline hc
    obtain ⟨hpar, -⟩ := State.feedBits_symbol hv hp .lineBreak
    rw [bitLo_symbolToBits_lineBreak hv hl, finishMessage_ok hproc] at hpar
    rw [List.flatMap_singleton]
    obtain ⟨hpar', hrsp'⟩ := State.feedBits_processing hpar (symbolToBits_ne_nil s.cfg .charBreak)
    exact ⟨hpar', hrsp', by rw [State.feedBits_thr, State.feedBits_thr]⟩

end Sys2Proof.Machine
end

section
/-! The Symbol Table: what ENC answers, O31, and what DEC answers, O32; the round trip, O35, and case folding, O36; the
default table, O38. -/

namespace Sys2Proof.Machine

section
variable {cfg : Cfg} {c ch : Byte} {q : List MorseSymbol} {k : Nat}

/-! ### Case folding (40_symbol_table.md R102) -/

theorem isUpper_iff : isUpper c = true ↔ 0x41 ≤ c.toNat ∧ c.toNat ≤ 0x5A := by
  simp [isUpper]

theorem isUpper_eq_false_iff : isUpper c = false ↔ ¬(0x41 ≤ c.toNat ∧ c.toNat ≤ 0x5A) := by
  rw [← isUpper_iff, Bool.not_eq_true]

theorem fold_of_upper (h : isUpper c = true) : fold c = c + 0x20#8 := if_pos h

theorem fold_of_not_upper (h : isUpper c = false) : fold c = c := if_neg (Bool.not_eq_true _ ▸ h)

theorem fold_toNat_of_upper (h : isUpper c = true) : (fold c).toNat = c.toNat + 0x20 := by
  have hrange := isUpper_iff.mp h
  rw [fold_of_upper h]
  bv_omega

@[simp] theorem isUpper_fold (c : Byte) : isUpper (fold c) = false := by
  cases h : isUpper c with
  | true =>
    have hrange := isUpper_iff.mp h
    rw [isUpper_eq_false_iff, fold_toNat_of_upper h]
    omega
  | false => rwa [fold_of_not_upper h]

@[simp] theorem fold_fold (c : Byte) : fold (fold c) = fold c := fold_of_not_upper (isUpper_fold c)

@[simp] theorem stEncode_fold (cfg : Cfg) (c : Byte) : stEncode cfg (fold c) = stEncode cfg c := by
  rw [stEncode, stEncode, fold_fold]

/-- `decode` answers the character of a row, and no row stands under an uppercase letter (00_scope.md R7). -/
theorem isUpper_of_stDecode (hv : cfg.Valid) (h : stDecode cfg q = .ok (some ch)) : isUpper ch = false :=
  (hv.table_rows _ (stDecode_some_mem h)).1

/-! ### The data field of ENC (40_symbol_table.md R105) -/

theorem encData_eq_append (q : List MorseSymbol) :
    encData q = 0#3 ++ (BitVec.ofNat 3 q.length ++ BitVec.ofNat 18 (packSymbols q)) :=
  BitVec.setWidth_eq_append (by decide)

theorem encData_unassigned (q : List MorseSymbol) : (encData q).extractLsb' 21 3 = 0#3 := by
  rw [encData_eq_append]
  exact BitVec.extractLsb'_append_eq_left

theorem encData_length (q : List MorseSymbol) : (encData q).extractLsb' 18 3 = BitVec.ofNat 3 q.length := by
  rw [encData_eq_append, BitVec.extractLsb'_append_eq_of_add_le (by decide)]
  exact BitVec.extractLsb'_append_eq_left

/-- Three bits of a packing are its slot modulo 8: a slice of `BitVec.ofNat` is a division. -/
theorem extractLsb'_ofNat_slot {w : Nat} (v : Nat) (h : 3 * k + 3 ≤ w) :
    (BitVec.ofNat w v).extractLsb' (3 * k) 3 = BitVec.ofNat 3 (v / 8 ^ k) := by
  have hpow : 8 ^ k = 2 ^ (3 * k) := (Nat.pow_mul 2 3 k).symm
  ext j hj
  have hlt : 3 * k + j < w := by omega
  simp [← BitVec.getLsbD_eq_getElem, BitVec.getLsbD_ofNat, hpow, Nat.testBit_div_two_pow, Nat.add_comm j, hj, hlt]

theorem encData_slot (q : List MorseSymbol) (hk : k < 6) :
    ((encData q).extractLsb' (3 * k) 3).toNat = (q[k]?.map symbolCode).getD 0 := by
  have hle : 3 * k + 3 ≤ 18 := by omega
  rw [encData_eq_append, BitVec.extractLsb'_append_eq_of_add_le (Nat.le_trans hle (by decide)),
    BitVec.extractLsb'_append_eq_of_add_le hle, extractLsb'_ofNat_slot _ hle, BitVec.toNat_ofNat]
  exact packSymbols_slot q k

theorem encData_slot_of_lt (hq : q.length ≤ 6) (hk : k < q.length) :
    q[k]?.map symbolCode = some ((encData q).extractLsb' (3 * k) 3).toNat := by
  rw [encData_slot q (Nat.lt_of_lt_of_le hk hq), List.getElem?_eq_getElem hk]
  rfl

theorem encData_slot_of_le (hk : k < 6) (hq : q.length ≤ k) : (encData q).extractLsb' (3 * k) 3 = 0#3 := by
  refine BitVec.eq_of_toNat_eq ?_
  rw [encData_slot q hk, List.getElem?_eq_none hq]
  rfl

/-! ### The answers of ENC and DEC (40_symbol_table.md R105 and R106) -/

theorem encRsp_of_mem (hv : cfg.Valid) (hm : (fold c, q) ∈ cfg.table) : encRsp cfg c = { data := encData q } := by
  rw [encRsp, stEncode_of_mem hv hm]
  rfl

theorem stEncode_unsupported (hn : ∀ q, (fold c, q) ∉ cfg.table) : stEncode cfg c = .err .unsupportedChar := by
  obtain ⟨q, -, hm⟩ | ⟨h, -⟩ := stEncode_cases cfg c
  · exact absurd hm (hn q)
  · exact h

theorem encRsp_unsupported (hn : ∀ q, (fold c, q) ∉ cfg.table) : encRsp cfg c = { err := 1#3 } := by
  rw [encRsp, stEncode_unsupported hn]
  rfl

theorem decData_eq_append (ch : Byte) : decData ch = 0#15 ++ (1#1 ++ ch) := BitVec.setWidth_eq_append (by decide)

theorem decRsp_of_mem (hv : cfg.Valid) (hm : (ch, q) ∈ cfg.table) :
    decRsp cfg q = { data := 0#15 ++ (1#1 ++ ch) } := by
  rw [decRsp, stDecode_of_mem hv hm, ← decData_eq_append]
  rfl

theorem decRsp_nil (cfg : Cfg) : decRsp cfg [] = {} := by
  rw [decRsp, stDecode_nil]

theorem decRsp_of_unknown (h : stDecode cfg q = .err .unknownSequence) : decRsp cfg q = { err := 3#3 } := by
  rw [decRsp, h]
  rfl

theorem exec_enc (c : Byte) (s : State) : exec (.enc c) s = .next (s.respond (encRsp s.cfg c)) := rfl

theorem exec_dec (q : List MorseSymbol) (s : State) : exec (.dec q) s = .next (s.respond (decRsp s.cfg q)) := rfl

/-! ### The default table (40_symbol_table.md R101) -/

theorem defaultTable_length_le {row : Byte × List MorseSymbol} (h : row ∈ defaultCfg.table) :
    row.2.length ≤ 6 := by
  revert row
  decide

theorem defaultTable_ascii {row : Byte × List MorseSymbol} (h : row ∈ defaultCfg.table) : row.1.toNat < 0x80 := by
  revert row
  decide

/-- No sequence longer than those of the default table has a row in it. -/
theorem stDecode_defaultCfg_of_length (h : 6 < q.length) : stDecode defaultCfg q = .err .unknownSequence := by
  refine stDecode_unknown (List.ne_nil_of_length_pos (Nat.zero_lt_of_lt h)) fun row hrow heq => ?_
  have hle := defaultTable_length_le hrow
  rw [heq] at hle
  exact absurd h (Nat.not_lt_of_le hle)

/-- 30_encoding.md R76: such a code is not folded, and the default table has no row for it. -/
theorem stEncode_defaultCfg_of_not_ascii (h : 0x80 ≤ c.toNat) : stEncode defaultCfg c = .err .unsupportedChar := by
  refine stEncode_unsupported fun q hm => ?_
  have hlower : isUpper c = false := isUpper_eq_false_iff.mpr (by omega)
  rw [fold_of_not_upper hlower] at hm
  exact absurd h (Nat.not_le_of_lt (defaultTable_ascii hm))

end

/-- Settles O31: ENC responds with `encRsp`, and the fields of its `data` are those of `encData`. -/
theorem encLooksUp : Obligations.EncLooksUp := by
  refine fun s c hv => ⟨fun q hm hlen => ⟨encData q, ?_, ?_, encData_unassigned q, fun k => encData_slot_of_lt hlen,
    fun k => encData_slot_of_le⟩, fun hn => ?_⟩
  · rw [exec_enc, encRsp_of_mem hv hm]
  · rw [encData_length, BitVec.toNat_ofNat]
    omega
  · rw [exec_enc, encRsp_unsupported hn]

/-- Settles O32: DEC responds with `decRsp`, a lookup of the whole slice (`stDecode_of_mem`, `stDecode_unknown`). -/
theorem decLooksUp : Obligations.DecLooksUp := by
  refine fun s q hv => ⟨fun ch hm => ⟨stDecode_of_mem hv hm, ?_⟩, ?_, fun hq hn => ?_, fun hcfg hlen => ?_⟩
  · rw [exec_dec, decRsp_of_mem hv hm]
  · rintro rfl
    exact ⟨stDecode_nil s.cfg, by rw [exec_dec, decRsp_nil]⟩
  · have hunknown := stDecode_unknown hq fun row hrow heq => hn row.1 (heq ▸ hrow)
    exact ⟨hunknown, by rw [exec_dec, decRsp_of_unknown hunknown]⟩
  · rw [exec_dec, hcfg, decRsp_of_unknown (stDecode_defaultCfg_of_length hlen)]

/-- Settles O35: the row `encode` answers is the row of the folded character, which `decode` finds. -/
theorem symbolTableRoundTrip : Obligations.SymbolTableRoundTrip := fun _ _ _ hv h =>
  stDecode_of_mem hv (stEncode_ok_mem h)

/-- Settles O36: `encode` looks up the folded code alone (`stEncode_fold`), and no row stands under an uppercase
letter. -/
theorem caseFolding : Obligations.CaseFolding := by
  refine fun cfg => ⟨fun c hlo hhi => ?_, fun c h => ?_, fun hv q ch h => ?_⟩
  · have hupper : isUpper c = true := isUpper_iff.mpr ⟨hlo, hhi⟩
    exact ⟨fold_toNat_of_upper hupper, by rw [← fold_of_upper hupper, stEncode_fold]⟩
  · exact fold_of_not_upper (isUpper_eq_false_iff.mpr h)
  · exact isUpper_eq_false_iff.mp (isUpper_of_stDecode hv h)

/-- Settles O38: the counts are evaluated; the rest is what the rows of the default table share. (The name
`defaultTable` is the model's.) -/
theorem defaultTable_counts : Obligations.DefaultTable :=
  ⟨rfl, by decide, fun _ hrow => ⟨row_no_charBreak defaultCfg_valid hrow, defaultTable_length_le hrow⟩,
    fun _ => stEncode_defaultCfg_of_not_ascii⟩

end Sys2Proof.Machine
end

section
/-! The Timing Codec: the run of each symbol as S2B answers it, O33, the runs B2S resolves, O34, and the round trip, O37. -/

namespace Sys2Proof.Machine

section
variable {cfg : Cfg} {r : List Bit} {y : MorseSymbol}

/-! ### The way back of `bitsToSymbol_symbolToBits` (41_timing_codec.md R126) -/

/-- A run that resolves has only `Hi`s before its `Lo`, and its length is that of the symbol. -/
theorem symbolToBits_of_bitsToSymbol (h : bitsToSymbol cfg r = .ok y) : symbolToBits cfg y = r := by
  obtain ⟨run, rfl, hhi, hlen⟩ := bitsToSymbol_ok h
  rw [symbolToBits, hlen, Nat.add_sub_cancel, ← List.eq_replicate_of_mem hhi]

/-! ### The data field of S2B (41_timing_codec.md R124) -/

/-- The `Hi`s fill the low bits, and the `Lo` on top of them adds nothing. -/
theorem packBits_symbolToBits (cfg : Cfg) (y : MorseSymbol) :
    packBits (symbolToBits cfg y) = 2 ^ (cfg.len y - 1) - 1 := by
  rw [symbolToBits, packBits_append, packBits_hi _ fun b hb => List.eq_of_mem_replicate hb, List.length_replicate]
  exact Nat.add_zero _

theorem s2bData_eq_append (r : List Bit) :
    s2bData r = 0#12 ++ (BitVec.ofNat 4 r.length ++ BitVec.ofNat 8 (packBits r)) :=
  BitVec.setWidth_eq_append (by decide)

theorem s2bData_unassigned (r : List Bit) : (s2bData r).extractLsb' 12 12 = 0#12 := by
  rw [s2bData_eq_append]
  exact BitVec.extractLsb'_append_eq_left

/-- Four bits hold the length of every run B2S takes, and of every run S2B answers. -/
theorem s2bData_length (h : r.length ≤ b2sMaxBits) : ((s2bData r).extractLsb' 8 4).toNat = r.length := by
  rw [s2bData_eq_append, BitVec.extractLsb'_append_eq_of_add_le (by decide), BitVec.extractLsb'_append_eq_left,
    BitVec.toNat_ofNat]
  exact Nat.mod_eq_of_lt (Nat.lt_of_le_of_lt h (by decide))

theorem s2bData_bits (h : r.length ≤ b2sMaxBits) : ((s2bData r).extractLsb' 0 8).toNat = packBits r := by
  rw [s2bData_eq_append, BitVec.extractLsb'_append_eq_of_add_le (by decide), BitVec.extractLsb'_append_eq_right,
    BitVec.toNat_ofNat]
  exact Nat.mod_eq_of_lt (packBits_lt_of_length_le h)

theorem symbolToBits_length_le (hv : cfg.Valid) (y : MorseSymbol) : (symbolToBits cfg y).length ≤ b2sMaxBits := by
  rw [symbolToBits_length hv]
  exact Nat.le_trans (hv.len_le y) hv.bitrunCap_le

/-! ### The answers of S2B and B2S (41_timing_codec.md R124 and R125) -/

theorem b2sRsp_symbolToBits (hv : cfg.Valid) (y : MorseSymbol) :
    b2sRsp cfg (symbolToBits cfg y) = .resolved y := by
  rw [b2sRsp, bitsToSymbol_symbolToBits hv]

/-- The only error `bits_to_symbol` has is `UnknownBitSequence`. -/
theorem b2sRsp_of_ne_symbolToBits (h : ∀ y, r ≠ symbolToBits cfg y) :
    b2sRsp cfg r = Rsp.withErr {} .unknownBitSequence := by
  rw [b2sRsp]
  cases hr : bitsToSymbol cfg r with
  | ok y => exact absurd (symbolToBits_of_bitsToSymbol hr).symm (h y)
  | err e => rw [bitsToSymbol_err hr]

theorem exec_s2b (y : MorseSymbol) (s : State) :
    exec (.s2b y) s = .next (s.respond { data := s2bData (symbolToBits s.cfg y) }) := rfl

theorem exec_b2s (r : List Bit) (s : State) : exec (.b2s r) s = .next (s.respond (b2sRsp s.cfg r)) := rfl

end

/-- Settles O33: S2B responds with `s2bData` of the run of the symbol, which fits the field (`symbolToBits_length_le`). -/
theorem s2bPacks : Obligations.S2bPacks := by
  intro s y hv
  have hle := symbolToBits_length_le hv y
  refine ⟨_, exec_s2b y s, ?_, ?_, s2bData_unassigned _⟩
  · rw [s2bData_length hle, symbolToBits_length hv]
  · rw [s2bData_bits hle, packBits_symbolToBits]

/-- Settles O34: the runs of the symbols resolve (`b2sRsp_symbolToBits`), and no other run does. -/
theorem b2sResolves : Obligations.B2sResolves := by
  refine fun s r hv => ⟨?_, fun hne => ?_⟩
  · intro y hr
    obtain rfl : r = symbolToBits s.cfg y := hr
    rw [exec_b2s, b2sRsp_symbolToBits hv]
    rfl
  · rw [exec_b2s, b2sRsp_of_ne_symbolToBits hne]
    rfl

/-- Settles O37: `bitsToSymbol_symbolToBits` and `symbolToBits_of_bitsToSymbol`. -/
theorem timingCodecRoundTrip : Obligations.TimingCodecRoundTrip := fun _ hv =>
  ⟨bitsToSymbol_symbolToBits hv, fun _ _ => symbolToBits_of_bitsToSymbol⟩

end Sys2Proof.Machine
end

section
/-! The Frame Synchronizer: the push in the flat registers, O39, and the first occurrence in a stream, O40. -/

namespace Sys2Proof.Machine

section
variable {cfg : Cfg} {win w x y : List Bit} {b : Bit} {k : Nat}

/-! ### The push in the flat registers (42_frame_synchronizer.md R138)

In this section `w` is the shifted window, the one `fsPush_cases` compares with the Start Pattern. -/

/-- The length tells an unfilled window from a full one, so the numbers are compared only at equal lengths. -/
theorem eq_sp_iff_packBits : w = cfg.sp ↔ w.length = cfg.spLen ∧ packBits w = packBits cfg.sp :=
  ⟨fun h => ⟨congrArg List.length h, congrArg packBits h⟩, fun ⟨hlen, hpack⟩ => packBits_injective hlen hpack⟩

/-- The registers after the shift hold the shifted window. -/
theorem fsPushFlat_of_shift (hsp : 1 ≤ cfg.spLen) (hw : win.length ≤ cfg.spLen)
    (hs : (win.length < cfg.spLen ∧ w = win ++ [b]) ∨ (cfg.spLen ≤ win.length ∧ w = win.tail ++ [b])) :
    fsPushFlat cfg (packBits win) win.length b =
      if w = cfg.sp then ((0, 0), true) else ((packBits w, w.length), false) := by
  simp only [eq_sp_iff_packBits]
  obtain ⟨hlt, rfl⟩ | ⟨hge, rfl⟩ := hs
  · simp only [fsPushFlat, if_pos hlt, packBits_snoc, List.length_append, List.length_singleton]
  · have hlen : win.length = cfg.spLen := Nat.le_antisymm hw hge
    simp only [fsPushFlat, hlen, Nat.lt_irrefl, if_false, packBits_snoc, packBits_tail, List.length_append,
      List.length_tail, List.length_singleton, Nat.sub_add_cancel hsp]

/-! ### The window over a stream (42_frame_synchronizer.md R140) -/

/-- The last `SP_LEN` bits of `y`: the window after the bits `y`, as long as the Start Pattern has not occurred in them
(`fsStream_take`). -/
def lastBits (cfg : Cfg) (y : List Bit) : List Bit := y.drop (y.length - cfg.spLen)

theorem lastBits_eq_sp_iff : lastBits cfg y = cfg.sp ↔ cfg.sp <:+ y :=
  eq_comm.trans List.suffix_iff_eq_drop.symm

theorem lastBits_length (cfg : Cfg) (y : List Bit) : (lastBits cfg y).length = min y.length cfg.spLen := by
  rw [lastBits, List.length_drop]
  omega

theorem lastBits_snoc_of_lt (b : Bit) (h : y.length < cfg.spLen) :
    lastBits cfg (y ++ [b]) = lastBits cfg y ++ [b] := by
  rw [lastBits, lastBits, List.length_append, List.length_singleton, Nat.sub_eq_zero_of_le h,
    Nat.sub_eq_zero_of_le (Nat.le_of_lt h), List.drop_zero, List.drop_zero]

theorem lastBits_snoc_of_le (b : Bit) (hsp : 1 ≤ cfg.spLen) (h : cfg.spLen ≤ y.length) :
    lastBits cfg (y ++ [b]) = (lastBits cfg y).tail ++ [b] := by
  rw [lastBits, lastBits, List.tail_drop, List.length_append, List.length_singleton, Nat.sub_add_comm h,
    List.drop_append_of_le_length (by omega)]

/-- The shift of `fs_push` takes the last bits of `y` to the last bits of `y ++ [b]`. -/
theorem lastBits_shift (hsp : 1 ≤ cfg.spLen)
    (hs : ((lastBits cfg y).length < cfg.spLen ∧ w = lastBits cfg y ++ [b]) ∨
      (cfg.spLen ≤ (lastBits cfg y).length ∧ w = (lastBits cfg y).tail ++ [b])) :
    w = lastBits cfg (y ++ [b]) := by
  rw [lastBits_length] at hs
  obtain ⟨hlt, rfl⟩ | ⟨hge, rfl⟩ := hs
  · exact (lastBits_snoc_of_lt b (by omega)).symm
  · exact (lastBits_snoc_of_le b hsp (by omega)).symm

/-- One push after `y`: lock exactly when the Start Pattern ends at the new bit. -/
theorem fsPush_lastBits_cases (hsp : 1 ≤ cfg.spLen) (y : List Bit) (b : Bit) :
    (cfg.sp <:+ y ++ [b] ∧ fsPush cfg (lastBits cfg y) b = ([], true)) ∨
    (¬ cfg.sp <:+ y ++ [b] ∧ fsPush cfg (lastBits cfg y) b = (lastBits cfg (y ++ [b]), false)) := by
  obtain ⟨w, hs, hcmp⟩ := fsPush_cases cfg (lastBits cfg y) b
  obtain rfl := lastBits_shift hsp hs
  rwa [Ne, lastBits_eq_sp_iff] at hcmp

/-- Bits at none of which the Start Pattern ends: no push reports lock. -/
theorem fsStream_take (hsp : 1 ≤ cfg.spLen) (hk : k ≤ x.length) (h : ∀ j < k, ¬ cfg.sp <:+ x.take (j + 1)) :
    fsStream cfg [] (x.take k) = (lastBits cfg (x.take k), List.replicate k false) := by
  induction k with
  | zero => rw [List.take_zero, fsStream, lastBits, List.drop_nil, List.replicate_zero]
  | succ k ih =>
    have hbefore := ih (Nat.le_of_lt hk) fun j hj => h j (Nat.lt_succ_of_lt hj)
    have hends := h k (Nat.lt_succ_self k)
    rw [← List.take_append_getElem hk] at hends ⊢
    obtain ⟨hlock, -⟩ | ⟨-, hpush⟩ := fsPush_lastBits_cases hsp (x.take k) x[k]
    · exact absurd hlock hends
    · simp only [fsStream_append, hbefore, fsStream, hpush, List.replicate_succ']

/-- The lock reports: those before bit `k`, that of bit `k`, and those of the rest from the window bit `k` leaves. -/
theorem fsStream_at (hsp : 1 ≤ cfg.spLen) (hk : k < x.length) (h : ∀ j < k, ¬ cfg.sp <:+ x.take (j + 1)) :
    (fsStream cfg [] x).2 = List.replicate k false ++ (fsPush cfg (lastBits cfg (x.take k)) x[k]).2 ::
      (fsStream cfg (fsPush cfg (lastBits cfg (x.take k)) x[k]).1 (x.drop (k + 1))).2 :=
  calc (fsStream cfg [] x).2
    _ = (fsStream cfg [] (x.take k ++ x[k] :: x.drop (k + 1))).2 := by
      rw [← List.drop_eq_getElem_cons hk, List.take_append_drop]
    _ = _ := by
      rw [fsStream_append, fsStream_take hsp (Nat.le_of_lt hk) h, fsStream]

/-- The report of bit `k` itself. -/
theorem fsStream_getElem? (hsp : 1 ≤ cfg.spLen) (hk : k < x.length) (h : ∀ j < k, ¬ cfg.sp <:+ x.take (j + 1)) :
    (fsStream cfg [] x).2[k]? = some (fsPush cfg (lastBits cfg (x.take k)) x[k]).2 := by
  rw [fsStream_at hsp hk h, List.getElem?_append_right (Nat.le_of_eq List.length_replicate), List.length_replicate,
    Nat.sub_self, List.getElem?_cons_zero]

/-- The reports after bit `k`. -/
theorem fsStream_drop (hsp : 1 ≤ cfg.spLen) (hk : k < x.length) (h : ∀ j < k, ¬ cfg.sp <:+ x.take (j + 1)) :
    (fsStream cfg [] x).2.drop (k + 1) =
      (fsStream cfg (fsPush cfg (lastBits cfg (x.take k)) x[k]).1 (x.drop (k + 1))).2 := by
  rw [fsStream_at hsp hk h, ← List.drop_drop, List.drop_left' List.length_replicate, List.drop_succ_cons,
    List.drop_zero]

end

/-- Settles O39: both forms compare the shifted window (`fsPush_cases` and `fsPushFlat_of_shift`). -/
theorem pushFlat : Obligations.PushFlat := by
  refine ⟨fun cfg win b hsp hw => ?_, rfl⟩
  obtain ⟨w, hs, ⟨heq, hpush⟩ | ⟨hne, hpush⟩⟩ := fsPush_cases cfg win b
  · rw [fsPushFlat_of_shift hsp hw hs, if_pos heq, hpush]
    rfl
  · rw [fsPushFlat_of_shift hsp hw hs, if_neg hne, hpush]

/-- Settles O40: before the first occurrence the window is the last `SP_LEN` bits received (`fsStream_take`), so the
push compares exactly those that end at its bit (`fsPush_lastBits_cases`). -/
theorem firstOccurrence : Obligations.FirstOccurrence := by
  intro cfg x k hsp hk hbefore
  rw [fsStream_getElem? hsp hk hbefore, fsStream_drop hsp hk hbefore, ← List.take_append_getElem hk]
  obtain ⟨hends, hpush⟩ | ⟨hends, hpush⟩ := fsPush_lastBits_cases hsp (x.take k) x[k] <;> rw [hpush]
  · exact ⟨iff_of_true rfl hends, iff_of_false nofun (not_not_intro hends), fun _ => rfl⟩
  · exact ⟨iff_of_false nofun hends, iff_of_true rfl hends, fun h => absurd h hends⟩

end Sys2Proof.Machine
end

section
/-! The Processing step of 43_decoder_state_machine.md R160: what a sequence gives, O22 and O24, which error decides, O23,
and the bound on the message, O21. -/

namespace Sys2Proof.Machine

section
variable {cfg : Cfg} {q sub : List MorseSymbol} {subs : List (List MorseSymbol)} {m : List Byte}

/-! ### The sub-lists -/

/-- A property that a list without `CharBreak` has, and that a first `CharBreak` carries from what follows it to the
whole, holds of every list. -/
theorem charBreak_induction {P : List MorseSymbol → Prop} (single : ∀ q, .charBreak ∉ q → P q)
    (append : ∀ a b, .charBreak ∉ a → P b → P (a ++ .charBreak :: b)) (q : List MorseSymbol) : P q := by
  by_cases hq : .charBreak ∈ q
  · obtain ⟨a, b, heq, ha⟩ := first_charBreak hq
    exact heq ▸ append a b ha (charBreak_induction single append b)
  · exact single q hq
termination_by q.length
decreasing_by rw [heq, List.length_append, List.length_cons]; omega

/-- Symbols put after `q` join its last sub-list. -/
theorem exists_splitBreaks_append (q : List MorseSymbol) :
    ∃ subs last, ∀ t, .charBreak ∉ t → splitBreaks (q ++ t) = subs ++ [last ++ t] := by
  induction q using charBreak_induction with
  | single q hq =>
    exact ⟨[], q, fun t ht => splitBreaks_single (List.not_mem_append hq ht)⟩
  | append a b ha ih =>
    obtain ⟨subs, last, ih⟩ := ih
    refine ⟨a :: subs, last, fun t ht => ?_⟩
    rw [List.append_assoc, List.cons_append, splitBreaks_append, splitBreaks_single ha, ih t ht]
    rfl

/-- Symbols put after a final `CharBreak`, or after nothing, are a sub-list of their own. -/
theorem exists_splitBreaks_closed {pre : List MorseSymbol} (h : pre = [] ∨ pre.getLast? = some .charBreak) :
    ∃ subs, ∀ t, .charBreak ∉ t → splitBreaks (pre ++ t) = subs ++ [t] := by
  obtain rfl | h := h
  · exact ⟨[], fun t ht => splitBreaks_single ht⟩
  · obtain ⟨a, rfl⟩ := List.getLast?_eq_some_iff.mp h
    refine ⟨splitBreaks a, fun t ht => ?_⟩
    rw [List.append_assoc, List.singleton_append, splitBreaks_append, splitBreaks_single ht]

/-- A sub-list that is not empty takes two symbols: one of its own and the `CharBreak` that ends it (the last one has no
`CharBreak`, which is the `+ 1`). -/
theorem countP_splitBreaks_le (q : List MorseSymbol) :
    2 * (splitBreaks q).countP (fun sub => sub ≠ []) ≤ q.length + 1 := by
  have single_le (a : List MorseSymbol) : 2 * [a].countP (fun sub => sub ≠ []) ≤ a.length + 1 := by
    cases a <;> simp
  induction q using charBreak_induction with
  | single q hq => rw [splitBreaks_single hq]; exact single_le q
  | append a b ha ih =>
    have := single_le a
    rw [splitBreaks_append, splitBreaks_single ha, List.countP_append, List.length_append, List.length_cons]
    omega

/-! ### The loop over the sub-lists -/

/-- No row but LF holds a `LineBreak`, so a sub-list with one gives nothing or is unknown. -/
theorem processSubs_of_lineBreak_mem (hv : cfg.Valid) (h : .lineBreak ∈ sub) (hne : sub ≠ [.lineBreak]) :
    processSubs cfg (sub :: subs) m = .err .unknownSequence :=
  processSubs_cons_unknown (List.ne_nil_of_mem h) hne
    (stDecode_unknown (List.ne_nil_of_mem h) fun _ hm heq => hne (heq ▸ (row_lineBreak hv hm (heq ▸ h)).2))

/-- Every character of the message comes from a sub-list that is not empty, so there are enough of these when the
message overflows. -/
theorem lt_countP_of_fullBuffer (h : processSubs cfg subs m = .err .fullBuffer) (hm : m.length ≤ cfg.msgCap) :
    cfg.msgCap < m.length + subs.countP (fun sub => sub ≠ []) := by
  induction subs generalizing m with
  | nil => cases h
  | cons sub subs ih =>
    obtain ⟨-, he⟩ | ⟨ch, hne, -, -, hl, he⟩ | ⟨ch, hne, -, -, hl, -⟩ | he := processSubs_cons_cases cfg sub subs m
    · have := ih (he ▸ h) hm
      rw [List.countP_cons]
      omega
    · have := ih (he ▸ h) (by rw [List.length_append, List.length_singleton]; omega)
      rw [List.length_append, List.length_singleton] at this
      rw [List.countP_cons_of_pos (by simpa using hne)]
      omega
    · rw [List.countP_cons_of_pos (by simpa using hne)]
      omega
    · rw [he] at h
      cases h

/-- The loop past a prefix that succeeds. -/
theorem processSubs_append_of_ok {pre : List (List MorseSymbol)} {m' : List Byte} (h : processSubs cfg pre m = .ok m') :
    processSubs cfg (pre ++ subs) m = processSubs cfg subs m' := by
  rw [processSubs_append, h]

/-- A final sub-list that holds a `LineBreak` is not what overflows the message. -/
theorem fullBuffer_before_lineBreak (hv : cfg.Valid) (hlb : .lineBreak ∈ sub)
    (h : processSubs cfg (subs ++ [sub]) m = .err .fullBuffer) : processSubs cfg subs m = .err .fullBuffer := by
  cases hp : processSubs cfg subs m with
  | err e => rwa [processSubs_append, hp] at h
  | ok m' =>
    rw [processSubs_append_of_ok hp] at h
    by_cases hsub : sub = [.lineBreak]
    · rw [processSubs_cons_skip (.inr hsub)] at h
      cases h
    · rw [processSubs_of_lineBreak_mem hv hlb hsub] at h
      cases h

/-! ### Rows of the table -/

/-- Rows of the table with a `CharBreak` after each split into their sequences. -/
theorem splitBreaks_rows {rows : List (Byte × List MorseSymbol)} (t : List MorseSymbol) (hv : cfg.Valid)
    (h : ∀ row ∈ rows, row ∈ cfg.table ∧ row.1 ≠ 0x0A#8) :
    splitBreaks (rows.flatMap (fun row => row.2 ++ [.charBreak]) ++ t) = rows.map Prod.snd ++ splitBreaks t := by
  induction rows with
  | nil => rfl
  | cons row rows ih =>
    obtain ⟨⟨hm, -⟩, hrows⟩ := List.forall_mem_cons.mp h
    rw [List.flatMap_cons, List.append_assoc, List.append_assoc, List.singleton_append, splitBreaks_append,
      splitBreaks_single (row_no_charBreak hv hm), ih hrows]
    rfl

/-- The sequences of rows other than LF give their characters, in order, as long as they fit. -/
theorem processSubs_rows {rows : List (Byte × List MorseSymbol)} (hv : cfg.Valid)
    (h : ∀ row ∈ rows, row ∈ cfg.table ∧ row.1 ≠ 0x0A#8) (hl : m.length + rows.length ≤ cfg.msgCap) :
    processSubs cfg (rows.map Prod.snd) m = .ok (m ++ rows.map Prod.fst) := by
  induction rows generalizing m with
  | nil => rw [List.map_nil, List.map_nil, List.append_nil]; rfl
  | cons row rows ih =>
    obtain ⟨⟨hm, hlf⟩, hrows⟩ := List.forall_mem_cons.mp h
    rw [List.length_cons] at hl
    have hne : row.2 ≠ [.lineBreak] := fun heq => row_no_lineBreak hv hm hlf (heq ▸ List.mem_singleton_self _)
    rw [List.map_cons, processSubs_cons_char (row_ne_nil hv hm) hne (stDecode_of_mem hv hm) (by omega),
      ih hrows (by rw [List.length_append, List.length_singleton]; omega), List.append_assoc]
    rfl

/-- The row of LF is the `LineBreak`, which gives no character (43_decoder_state_machine.md R161). -/
theorem newline_not_mem_of_process (hv : cfg.Valid) (h : process cfg q = .ok m) : 0x0A#8 ∉ m := by
  intro hmem
  obtain hnil | ⟨sub, -, hne, hrow⟩ := processSubs_mem _ _ _ h _ hmem
  · cases hnil
  · obtain ⟨-, -, hnewline, -⟩ := hv.table_rows _ hrow
    exact hne (hnewline rfl)

end

/-- Settles O21: `MSG_CAP + 1` characters need as many sub-lists before the final one (`lt_countP_of_fullBuffer`), hence
twice as many symbols (`countP_splitBreaks_le`). -/
theorem processFits : Obligations.ProcessFits := by
  refine ⟨fun cfg q hv _ hlen h => ?_, by decide⟩
  obtain ⟨subs, last, hsplit⟩ := exists_splitBreaks_append q
  have hsplit := hsplit [.lineBreak] (by decide)
  have hcount := countP_splitBreaks_le (q ++ [.lineBreak])
  rw [process, hsplit] at h
  have hfull := lt_countP_of_fullBuffer (fullBuffer_before_lineBreak hv (by simp) h) (Nat.zero_le _)
  rw [hsplit, List.countP_append, List.countP_cons_of_pos (by simp), List.length_append, List.length_singleton] at hcount
  rw [List.length_nil] at hfull
  omega

/-- Settles O22: the split gives the sequences of the rows (`splitBreaks_rows`), the loop their characters
(`processSubs_rows`), and the `LineBreak` adds nothing. -/
theorem processDecodesRows : Obligations.ProcessDecodesRows := by
  intro cfg rows hv hrows hlen
  have hloop : processSubs cfg (rows.map Prod.snd) [] = .ok (rows.map Prod.fst) :=
    processSubs_rows hv hrows (by rw [List.length_nil]; omega)
  rw [process, splitBreaks_rows _ hv hrows, processSubs_append_of_ok hloop]
  exact processSubs_cons_skip (.inr rfl)

/-- Settles O23: after the prefix the loop stands at `sub`, and its answer there does not depend on `post`. -/
theorem processFirstError : Obligations.ProcessFirstError := by
  intro cfg q pre sub post m hsplit hpre hnil hlb
  have hloop : process cfg q = processSubs cfg (sub :: post) m := by
    rw [process, hsplit, processSubs_append_of_ok hpre]
  rw [hloop]
  refine ⟨fun hno => processSubs_cons_unknown hnil hlb (stDecode_unknown hnil hno), ?_⟩
  rintro ⟨row, hrow, heq⟩ hfull
  obtain ⟨hsub, -⟩ | ⟨ch, -, hdec, -⟩ | ⟨-, -, hno⟩ := stDecode_cases cfg sub
  · exact absurd hsub hnil
  · exact processSubs_cons_full hnil hlb hdec hfull
  · exact absurd heq (hno row hrow)

/-- Settles O24: what follows the last `CharBreak` is a sub-list of its own (`exists_splitBreaks_closed`); the two given
messages are the rows `[]` and the space of O22. -/
theorem messageTerminator : Obligations.MessageTerminator := by
  intro cfg hv
  refine ⟨fun pre m hm hclosed => ?_, ?_, ?_, fun q m => newline_not_mem_of_process hv⟩
  · obtain ⟨subs, hsplit⟩ := exists_splitBreaks_closed hclosed
    have hsubs : processSubs cfg subs [] = .ok m := by
      rw [process, ← List.append_nil pre, hsplit [] (by simp), processSubs_append] at hm
      cases hp : processSubs cfg subs [] with
      | ok m' => rwa [hp] at hm
      | err e => rw [hp] at hm; cases hm
    constructor
    · rw [process, hsplit _ (by decide), processSubs_append_of_ok hsubs]
      exact processSubs_cons_skip (.inr rfl)
    · intro sub hne hcb
      rw [process, List.append_assoc, hsplit _ (by simpa using hcb), processSubs_append_of_ok hsubs]
      exact processSubs_of_lineBreak_mem hv (by simp) (by simpa using hne)
  · exact processDecodesRows cfg [] hv nofun (Nat.zero_le _)
  · exact processDecodesRows cfg [(0x20#8, [.wordBreak])] hv
      (List.forall_mem_singleton.mpr ⟨hv.table_space, by decide⟩) hv.msgCap_pos

end Sys2Proof.Machine
end

section
/-! One BIT in each state of the Decoder State Machine (43_decoder_state_machine.md R150, R170): while waiting, O14; while
listening, O15 to O20; while a message is held, O25; then SAMPLE, O27, and NEW, O28. -/

namespace Sys2Proof.Machine

section
variable {s t : State} {cfg : Cfg} {i : Instr} {b : Bit} {y : MorseSymbol} {win run bits : List Bit}
  {seq : List MorseSymbol} {msg : List Byte} {p : Parser} {r : Rsp}

/-! ### BIT and SAMPLE as one move of the Parser -/

theorem exec_bit_of (h : parserBit s.cfg s.parser b = (p, r)) :
    exec (.bit b) s = .next ((s.withParser p).respond r) := by
  show Host.Outcome.next (s.feedBit b) = _
  rw [State.feedBit, h]

theorem exec_bit_lo_of (hp : s.parser = .listening run seq) (h : bitLo s.cfg (run ++ [.lo]) seq = (p, r)) :
    exec (.bit .lo) s = .next ((s.withParser p).respond r) :=
  exec_bit_of (by rw [hp]; exact h)

theorem exec_bit_hi_of (hp : s.parser = .listening run seq) (h : bitHi s.cfg (run ++ [.hi]) seq = (p, r)) :
    exec (.bit .hi) s = .next ((s.withParser p).respond r) :=
  exec_bit_of (by rw [hp]; exact h)

/-! ### A waiting Parser -/

theorem parserBit_no_lock (h : (fsPush cfg win b).2 = false) :
    parserBit cfg (.waitingForStart win) b = (.waitingForStart (fsPush cfg win b).1, {}) := by
  simp [parserBit, bitWaiting, h]

theorem parserBit_lock (h : (fsPush cfg win b).2 = true) :
    parserBit cfg (.waitingForStart win) b = (.listening [] [], .locked) := by
  simp [parserBit, bitWaiting, h]

/-! ### A completed run -/

/-- A run of no symbol's length (41_timing_codec.md R123). -/
theorem bitsToSymbol_of_no_len (hrun : ∀ b ∈ run, b = .hi) (h : ∀ y, cfg.len y ≠ run.length + 1) :
    bitsToSymbol cfg (run ++ [.lo]) = .err .unknownBitSequence := by
  rw [bitsToSymbol_run hrun, symbolOfLen_none h]

/-- Once a run is resolved the response keeps its symbol, and an error is no longer UnknownBitSequence. -/
theorem bitLo_resolved (h : bitsToSymbol cfg bits = .ok y) :
    (bitLo cfg bits seq).2.symValid = true ∧ (bitLo cfg bits seq).2.sym = BitVec.ofNat 3 (symbolCode y) ∧
    (bitLo cfg bits seq).2.err ≠ 2#3 := by
  have none_ne : (0#3 : BitVec 3) ≠ 2#3 := by decide
  have fullBuffer_ne : errorCode .fullBuffer ≠ 2#3 := by decide
  have unknownSequence_ne : errorCode .unknownSequence ≠ 2#3 := by decide
  by_cases hl : seq.length = cfg.symseqCap
  · rw [bitLo_full h hl]
    exact ⟨rfl, rfl, fullBuffer_ne⟩
  · by_cases hy : y = .lineBreak
    · subst hy
      rw [bitLo_lineBreak h hl]
      cases hp : process cfg (seq ++ [.lineBreak]) with
      | ok m => rw [finishMessage_ok hp]; exact ⟨rfl, rfl, none_ne⟩
      | err e =>
        rw [finishMessage_err hp]
        obtain rfl | rfl := process_err hp
        · exact ⟨rfl, rfl, unknownSequence_ne⟩
        · exact ⟨rfl, rfl, fullBuffer_ne⟩
    · rw [bitLo_symbol h hl hy]
      exact ⟨rfl, rfl, none_ne⟩

/-- At the default `LEN` the runs of at most 8 bits that are no symbol are those of 6, 7 and 8 bits. -/
theorem defaultCfg_no_len_iff {n : Nat} (hn : n < defaultCfg.bitrunCap) :
    (∀ y, defaultCfg.len y ≠ n + 1) ↔ n ∈ [5, 6, 7] := by
  have lookup : ∀ n < defaultCfg.bitrunCap, symbolOfLen defaultCfg (n + 1) = none ↔ n ∈ [5, 6, 7] := by decide
  rw [← symbolOfLen_eq_none, lookup n hn]

/-! ### A held message -/

/-- Only NEW takes the Parser out of `Processing` (43_decoder_state_machine.md R164, 70_reset_and_hazards.md R241). -/
theorem exec_processing (hp : s.parser = .processing seq msg) (hi : i ≠ .new) (h : exec i s = .next t) :
    t.parser = s.parser := by
  obtain ⟨b, -, rfl⟩ | ⟨v, -, rfl⟩ | ⟨hnew, -⟩ | ⟨v, -, rfl⟩ | ⟨k, -, rfl⟩ | ⟨c, -, rfl⟩ | ⟨q, -, rfl⟩ | ⟨y, -, rfl⟩ |
    ⟨run, -, rfl⟩ | ⟨bits, -, rfl⟩ := exec_next_cases h
  case inl => rw [State.feedBit_parser, hp]; rfl
  case inr.inl => rw [State.feedSample_parser, hp]; rfl
  case inr.inr.inl => exact absurd hnew hi
  case inr.inr.inr.inr.inr.inr.inr.inr.inr =>
    obtain ⟨-, -, -, hpar, -⟩ := s.feedBits_spec bits
    rw [hpar, hp, parserBits_processing]
  all_goals rfl

end

/-- Settles O14: the two outcomes of the push. -/
theorem waitingBit : Obligations.WaitingBit := fun _ _ _ hp =>
  ⟨fun hno => exec_bit_of (by rw [hp]; exact parserBit_no_lock hno),
    fun hlock => exec_bit_of (by rw [hp]; exact parserBit_lock hlock)⟩

/-- Settles O15: a `Hi` looks at the length of the run only (`bitHi_room`, `bitHi_full`); a `Lo` resolves the run first
(`bitLo_resolved`). -/
theorem runOverflow : Obligations.RunOverflow := by
  intro s run seq hv hp hrun
  have hlen : (run ++ [Bit.hi]).length = run.length + 1 := by rw [List.length_append, List.length_singleton]
  refine ⟨fun hroom => exec_bit_hi_of hp (bitHi_room (by omega)), fun hfull =>
    ⟨exec_bit_hi_of hp (bitHi_full (hlen.trans hfull)), fun hno => ?_, fun y hy => ?_⟩⟩
  · exact exec_bit_lo_of hp (bitLo_err (bitsToSymbol_of_no_len hrun (hfull ▸ hno)))
  · obtain ⟨hvalid, hsym, -⟩ := bitLo_resolved (seq := seq) (bitsToSymbol_of_len hv hrun (hy.trans hfull.symm))
    exact ⟨_, exec_bit_lo_of hp rfl, hvalid, hsym⟩

/-- Settles O16: `bitLo_symbol`. -/
theorem runResolves : Obligations.RunResolves := fun _ _ _ _ hv hp hrun hlen hroom hy =>
  exec_bit_lo_of hp (bitLo_symbol (bitsToSymbol_of_len hv hrun hlen) (Nat.ne_of_lt hroom) hy)

/-- Settles O17: a run of no symbol's length is an error, and one that resolves reports another error or none
(`bitLo_resolved`). -/
theorem runUnknown : Obligations.RunUnknown := by
  intro s run seq hp hrun
  have unknown (hno : ∀ y, s.cfg.len y ≠ run.length + 1) :
      exec (.bit .lo) s = .next ((s.withParser .fresh).respond { err := 2#3 }) :=
    exec_bit_lo_of hp (bitLo_err (bitsToSymbol_of_no_len hrun hno))
  refine ⟨unknown, fun hcfg hlt => ?_⟩
  rw [← defaultCfg_no_len_iff hlt, ← hcfg]
  constructor
  · rintro ⟨t, ht, herr⟩ y hy
    have hv : s.cfg.Valid := hcfg ▸ defaultCfg_valid
    obtain ⟨-, -, hne⟩ := bitLo_resolved (seq := seq) (bitsToSymbol_of_len hv hrun hy)
    rw [exec_bit_lo_of hp rfl] at ht
    cases ht
    exact hne herr
  · exact fun hno => ⟨_, unknown hno, rfl⟩

/-- Settles O18: `bitLo_full`, whatever the symbol. -/
theorem sequenceOverflow : Obligations.SequenceOverflow := fun _ _ _ _ hv hp hrun hlen hfull =>
  exec_bit_lo_of hp (bitLo_full (bitsToSymbol_of_len hv hrun hlen) hfull)

/-- Settles O19: `finishMessage_ok`, and from `Processing` `exec_processing`. -/
theorem messageComplete : Obligations.MessageComplete := by
  intro s run seq m hv hp hrun hlen hroom hproc
  have hlo := bitLo_lineBreak (bitsToSymbol_of_len hv hrun hlen) (Nat.ne_of_lt hroom)
  refine ⟨_, exec_bit_lo_of hp (hlo.trans (finishMessage_ok hproc)), rfl, rfl, rfl, rfl, rfl, fun _ _ => rfl,
    fun i u hi hu => ?_⟩
  have hkept := exec_processing rfl hi hu
  exact ⟨hkept, by rw [State.stateOut, hkept]; rfl⟩

/-- Settles O20: `finishMessage_err`, with the errors of `process_err`. -/
theorem messageFails : Obligations.MessageFails := by
  intro s run seq e hv hp hrun hlen hroom hproc
  have hlo := bitLo_lineBreak (bitsToSymbol_of_len hv hrun hlen) (Nat.ne_of_lt hroom)
  exact ⟨exec_bit_lo_of hp (hlo.trans (finishMessage_err hproc)), process_err hproc, msgRead_fresh⟩

/-- Settles O25: the row of `Processing` in `parserBit`, for BIT and for the bit of a SAMPLE. -/
theorem ignoredWhileHeld : Obligations.IgnoredWhileHeld := by
  intro s seq msg hp
  have hself : s.withParser (.processing seq msg) = s := by rw [← hp]; rfl
  have hbit (b : Bit) : parserBit s.cfg s.parser b = (.processing seq msg, .ignoring) := by rw [hp]; rfl
  constructor
  · intro b
    rw [exec_bit_of (hbit b), hself]
    rfl
  · intro v
    show Host.Outcome.next (s.feedSample v) = _
    simp only [State.feedSample, hbit, hself, sampleBit]
    split <;> rfl

/-- Settles O27: `sampleBit` is the comparison, and `State.feedSample` the bit with `data` set. -/
theorem sampleThreshold : Obligations.SampleThreshold := by
  rintro s v b rfl
  refine ⟨⟨_, _, rfl, rfl⟩, fun htop hwf => if_neg ?_, fun hzero hv => if_pos ?_⟩
  · have hlt : v.toNat < 2 ^ s.cfg.sampleW := of_decide_eq_true hwf
    omega
  · omega

/-- Settles O28: `execNew` is this update. -/
theorem newDiscards : Obligations.NewDiscards := fun _ => ⟨_, rfl, rfl, rfl, rfl, msgRead_fresh⟩

end Sys2Proof.Machine
end

section
/-! What leaves `WaitingForStart`, O41; what the operations of the bit stream leave unchanged, O47; and a channel stuck at
one level, O54. -/

namespace Sys2Proof.Machine

section
variable {s t : State} {cfg : Cfg} {i : Instr} {b : Bit} {win : List Bit}

/-- A bit that leaves `WaitingForStart` is the lock (43_decoder_state_machine.md R152, R153). -/
theorem parserBit_leaves_waiting (h : (parserBit cfg (.waitingForStart win) b).1.tag ≠ 0#2) :
    parserBit cfg (.waitingForStart win) b = (.listening [] [], .locked) := by
  cases hlock : (fsPush cfg win b).2 with
  | false => rw [parserBit_no_lock hlock] at h; exact absurd rfl h
  | true => exact parserBit_lock hlock

/-- Only SETTHR writes `THR` (10_state.md R29). -/
theorem exec_thr (hi : ∀ v, i ≠ .setthr v) (h : exec i s = .next t) : t.thr = s.thr := by
  obtain ⟨b, -, rfl⟩ | ⟨v, -, rfl⟩ | ⟨-, rfl⟩ | ⟨v, hset, -⟩ | ⟨k, -, rfl⟩ | ⟨c, -, rfl⟩ | ⟨q, -, rfl⟩ | ⟨y, -, rfl⟩ |
    ⟨run, -, rfl⟩ | ⟨bits, -, rfl⟩ := exec_next_cases h
  case inr.inr.inr.inl => exact absurd hset (hi v)
  case inr.inr.inr.inr.inr.inr.inr.inr.inr => exact s.feedBits_thr bits
  all_goals rfl

/-! ### A stuck channel (43_decoder_state_machine.md R172) -/

/-- `n` BIT commands of one level: the machine after them, in terms of its Parser. -/
theorem run_stuck {p : Parser} (hp : s.parser = p) (b : Bit) (n : Nat) :
    ∃ t, Sys2Proof.core.run n (s.withInputs (scriptBits (List.replicate n b))) = .next t ∧
      t.parser = (parserBits s.cfg p (List.replicate n b)).1 ∧
      t.rsp = (parserBits s.cfg p (List.replicate n b)).2.getLastD s.rsp := by
  subst hp
  have hrun := run_scriptBits (List.replicate n b) s []
  rw [List.append_nil, List.length_replicate] at hrun
  obtain ⟨-, -, -, hpar, -⟩ := foldl_feedBit (List.replicate n b) s
  obtain ⟨-, hrsp⟩ := foldl_feedBit_rsp (List.replicate n b) s
  exact ⟨_, hrun, hpar, hrsp⟩

/-- Where a `CharBreak` is a single `Lo`, `n` times `Lo` is `n` times `CharBreak`. -/
theorem replicate_lo_eq_flatMap (hcb : cfg.len .charBreak = 1) (n : Nat) :
    List.replicate n .lo = (List.replicate n .charBreak).flatMap (symbolToBits cfg) := by
  have hone : symbolToBits cfg .charBreak = [.lo] := by rw [symbolToBits, hcb]; rfl
  induction n with
  | zero => rfl
  | succ n ih => rw [List.replicate_succ, List.replicate_succ, List.flatMap_cons, hone, ← ih]; rfl

/-- Stuck at `Lo` from a symbol boundary: one `CharBreak` for each bit. -/
theorem parserBits_lo (hv : cfg.Valid) (hcb : cfg.len .charBreak = 1) {n : Nat} (hn : n ≤ cfg.symseqCap) :
    (parserBits cfg (.listening [] []) (List.replicate n .lo)).1 = .listening [] (List.replicate n .charBreak) := by
  rw [replicate_lo_eq_flatMap hcb, parserBits_symbols hv _ _ (by simp [List.mem_replicate]) (by simpa using hn),
    List.nil_append]

/-- The `Lo` after a full sequence of them. -/
theorem parserBits_lo_full (hv : cfg.Valid) (hcb : cfg.len .charBreak = 1) (r : Rsp) :
    (parserBits cfg (.listening [] []) (List.replicate (cfg.symseqCap + 1) .lo)).1 = .fresh ∧
    (parserBits cfg (.listening [] []) (List.replicate (cfg.symseqCap + 1) .lo)).2.getLastD r =
      (Rsp.resolved .charBreak).withErr .fullBuffer := by
  have hbit : parserBit cfg (.listening [] (List.replicate cfg.symseqCap .charBreak)) .lo =
      errorEntry (.resolved .charBreak) .fullBuffer :=
    bitLo_full (bitsToSymbol_of_len (run := []) hv nofun hcb) List.length_replicate
  rw [List.replicate_succ', parserBits_append, parserBits_lo hv hcb (Nat.le_refl _)]
  simp only [parserBits, hbit, List.getLastD_concat]
  exact ⟨rfl, rfl⟩

/-- The `Hi` that fills the run. -/
theorem parserBits_hi_full (hv : cfg.Valid) (r : Rsp) :
    (parserBits cfg (.listening [] []) (List.replicate cfg.bitrunCap .hi)).1 = .fresh ∧
    (parserBits cfg (.listening [] []) (List.replicate cfg.bitrunCap .hi)).2.getLastD r =
      Rsp.withErr {} .fullBuffer := by
  obtain ⟨k, hk⟩ := Nat.exists_eq_add_one.mpr hv.bitrunCap_pos
  have hbit : parserBit cfg (.listening (List.replicate k .hi) []) .hi = errorEntry {} .fullBuffer :=
    bitHi_full (by simp [hk])
  rw [hk, List.replicate_succ', parserBits_append, parserBits_hi cfg [] k [] (by simp [hk])]
  simp only [parserBits, List.nil_append, hbit, List.getLastD_concat]
  exact ⟨rfl, rfl⟩

/-- A Start Pattern that holds the other level does not occur in a stuck channel. -/
theorem parserBits_stuck_waiting (hv : cfg.Valid) (hother : ∃ c ∈ cfg.sp, c ≠ b) (n : Nat) :
    (parserBits cfg .fresh (List.replicate n b)).1.tag = 0#2 := by
  have hno : ∀ j < n, ¬ cfg.sp <:+ (List.replicate n b).take (j + 1) := by
    intro j _ hsuffix
    obtain ⟨c, hc, hne⟩ := hother
    exact hne (List.eq_of_mem_replicate (List.mem_of_mem_take (hsuffix.subset hc)))
  have hstream := fsStream_take hv.spLen_pos (Nat.le_of_eq List.length_replicate.symm) hno
  rw [List.take_of_length_le (Nat.le_of_eq List.length_replicate)] at hstream
  rw [Parser.fresh, parserBits_waiting cfg _ [] (by rw [hstream]; exact fun _ => List.eq_of_mem_replicate)]
  rfl

end

/-- Settles O41: the operations other than BIT and SAMPLE keep the Parser or make it fresh, and those two move it by one
bit (`parserBit_leaves_waiting`). -/
theorem onlyLockStartsListening : Obligations.OnlyLockStartsListening := by
  intro s t win i hp hsym hchar hstart h htag
  obtain ⟨b, rfl, rfl⟩ | ⟨v, rfl, rfl⟩ | ⟨-, rfl⟩ | ⟨v, -, rfl⟩ | ⟨k, -, rfl⟩ | ⟨c, -, rfl⟩ | ⟨q, -, rfl⟩ | ⟨y, -, rfl⟩ |
    ⟨run, -, rfl⟩ | ⟨bits, hexp, -⟩ := exec_next_cases h
  case inl =>
    rw [State.stateOut, State.feedBit_parser, hp] at htag
    rw [State.feedBit_parser, State.feedBit_rsp, hp, parserBit_leaves_waiting htag]
    exact ⟨rfl, rfl, .inl ⟨b, rfl⟩⟩
  case inr.inl =>
    rw [State.stateOut, State.feedSample_parser, hp] at htag
    rw [State.feedSample_parser, State.feedSample_rsp, hp, parserBit_leaves_waiting htag]
    exact ⟨rfl, rfl, .inr ⟨v, rfl⟩⟩
  case inr.inr.inr.inr.inr.inr.inr.inr.inr =>
    rw [expansion_eq_none hsym hchar hstart] at hexp
    cases hexp
  case inr.inr.inl => exact absurd rfl htag
  all_goals exact absurd (congrArg Parser.tag hp) htag

/-- Settles O47: `exec_thr`, `exec_cfg`, `exec_inputs`, and an instruction only adds responses (`exec_trace_legal`). -/
theorem streamFrame : Obligations.StreamFrame := by
  intro s t i hi h
  have hset : ∀ v, i ≠ .setthr v := by
    rintro v rfl
    simp [Instr.symbol?, Instr.charCode?] at hi
  obtain ⟨rs, htrace, -⟩ := exec_trace_legal h
  exact ⟨exec_thr hset h, exec_cfg h, exec_inputs h, rs, htrace.symm⟩

/-- Settles O54: the machine follows its Parser (`run_stuck`). -/
theorem deadChannel : Obligations.DeadChannel := by
  intro s hv hcb
  refine ⟨fun hp => ⟨fun n hn => ?_, ?_, ?_⟩, fun hp b hother n => ?_⟩
  · obtain ⟨t, hrun, hpar, -⟩ := run_stuck hp .lo n
    exact ⟨t, hrun, hpar.trans (parserBits_lo hv hcb hn)⟩
  · obtain ⟨t, hrun, hpar, hrsp⟩ := run_stuck hp .lo (s.cfg.symseqCap + 1)
    obtain ⟨hfresh, hlast⟩ := parserBits_lo_full hv hcb s.rsp
    exact ⟨t, hrun, hpar.trans hfresh, hrsp.trans hlast⟩
  · obtain ⟨t, hrun, hpar, hrsp⟩ := run_stuck hp .hi s.cfg.bitrunCap
    obtain ⟨hfresh, hlast⟩ := parserBits_hi_full hv s.rsp
    exact ⟨t, hrun, hpar.trans hfresh, hrsp.trans hlast⟩
  · obtain ⟨t, hrun, hpar, -⟩ := run_stuck hp b n
    exact ⟨t, hrun, (congrArg Parser.tag hpar).trans (parserBits_stuck_waiting hv hother n)⟩

end Sys2Proof.Machine
end

section
/-! `build_frame` of 44_frame_format.md R181 on every text, O57, and a frame received bit by bit, R184, O58. -/

namespace Sys2Proof.Machine

section
variable {cfg : Cfg} {text pre post : List Byte} {c : Byte} {e : ErrorKind}

/-! ### What `build_frame` answers -/

/-- A text is supported, or it has a first unsupported character. -/
theorem supported_or_first_unsupported (cfg : Cfg) (text : List Byte) :
    (∀ c ∈ text, ∃ q, stEncode cfg c = .ok q) ∨
    ∃ pre c post, text = pre ++ c :: post ∧ (∀ d ∈ pre, ∃ q, stEncode cfg d = .ok q) ∧
      stEncode cfg c = .err .unsupportedChar := by
  induction text with
  | nil => exact .inl nofun
  | cons d text ih =>
    obtain ⟨q, hq, -⟩ | ⟨hd, -⟩ := stEncode_cases cfg d
    · obtain hall | ⟨pre, c, post, rfl, hpre, hc⟩ := ih
      · exact .inl (List.forall_mem_cons.mpr ⟨⟨q, hq⟩, hall⟩)
      · exact .inr ⟨d :: pre, c, post, rfl, List.forall_mem_cons.mpr ⟨⟨q, hq⟩, hpre⟩, hc⟩
    · exact .inr ⟨[], d, text, rfl, nofun, hd⟩

theorem buildFrame_append (hpre : ∀ c ∈ pre, ∃ q, stEncode cfg c = .ok q) (post : List Byte) :
    buildFrame cfg (pre ++ post) =
      if (pre.flatMap (charBits cfg)).length ≤ cfg.frameCap then frameChars cfg (pre.flatMap (charBits cfg)) post
      else .err .fullBuffer :=
  frameChars_append cfg post pre [] (Nat.zero_le _) hpre

/-- Supported characters: everything fits, or the answer is FullBuffer. -/
theorem buildFrame_of_supported (h : ∀ c ∈ text, ∃ q, stEncode cfg c = .ok q) :
    buildFrame cfg text =
      if (text.flatMap (charBits cfg) ++ symbolToBits cfg .lineBreak).length ≤ cfg.frameCap
      then .ok (text.flatMap (charBits cfg) ++ symbolToBits cfg .lineBreak) else .err .fullBuffer := by
  have happend := buildFrame_append h []
  rw [List.append_nil] at happend
  rw [happend]
  by_cases hfit : (text.flatMap (charBits cfg)).length ≤ cfg.frameCap
  · rw [if_pos hfit, frameChars_nil]
  · rw [if_neg hfit, if_neg (by rw [List.length_append]; omega)]

/-- At the first unsupported character: what stands before it fits, or the answer is FullBuffer already. -/
theorem buildFrame_of_unsupported (hpre : ∀ c ∈ pre, ∃ q, stEncode cfg c = .ok q) (hc : stEncode cfg c = .err e) :
    buildFrame cfg (pre ++ c :: post) =
      if (pre.flatMap (charBits cfg)).length ≤ cfg.frameCap then .err .unsupportedChar else .err .fullBuffer := by
  rw [buildFrame_append hpre, frameChars_unsupported hc, stEncode_err hc]

theorem supported_of_buildFrame {bits : List Bit} (h : buildFrame cfg text = .ok bits) :
    ∀ c ∈ text, ∃ q, stEncode cfg c = .ok q := by
  obtain hall | ⟨pre, c, post, rfl, hpre, hc⟩ := supported_or_first_unsupported cfg text
  · exact hall
  · rw [buildFrame_of_unsupported hpre hc] at h
    split at h <;> cases h

theorem buildFrame_err (h : buildFrame cfg text = .err e) : e = .unsupportedChar ∨ e = .fullBuffer := by
  obtain hall | ⟨pre, c, post, rfl, hpre, hc⟩ := supported_or_first_unsupported cfg text
  · rw [buildFrame_of_supported hall] at h
    split at h <;> cases h
    exact .inr rfl
  · rw [buildFrame_of_unsupported hpre hc] at h
    split at h <;> cases h
    · exact .inl rfl
    · exact .inr rfl

theorem buildFrame_eq_ok_iff {bits : List Bit} : buildFrame cfg text = .ok bits ↔
    (∀ c ∈ text, ∃ q, stEncode cfg c = .ok q) ∧ bits.length ≤ cfg.frameCap ∧
    bits = text.flatMap (charBits cfg) ++ symbolToBits cfg .lineBreak := by
  constructor
  · intro h
    have hall := supported_of_buildFrame h
    rw [buildFrame_of_supported hall] at h
    split at h <;> cases h
    exact ⟨hall, ‹_›, rfl⟩
  · rintro ⟨hall, hfit, rfl⟩
    rw [buildFrame_of_supported hall, if_pos hfit]

end

/-- Settles O57: `buildFrame` on a supported text (`buildFrame_of_supported`), and on one with a first unsupported
character (`buildFrame_of_unsupported`). -/
theorem buildFrameShape : Obligations.BuildFrameShape := by
  refine fun cfg text => ⟨fun bits => buildFrame_eq_ok_iff, fun e => buildFrame_err, fun hall =>
    ⟨fun hfit c e post hc => ?_, fun hfull post => ?_, fun hfull => ?_⟩⟩
  · rw [buildFrame_of_unsupported hall hc, if_pos hfit]
  · rw [buildFrame_append hall, if_neg (Nat.not_le_of_lt hfull)]
  · rw [buildFrame_of_supported hall, if_neg (by rw [List.length_append]; omega)]

/-! ### A text as rows of the table -/

section
variable {cfg : Cfg} {text : List Byte}

theorem fold_ne_newline {c : Byte} (h : c ≠ 0x0A#8) : fold c ≠ 0x0A#8 := by
  cases hu : isUpper c with
  | false => rwa [fold_of_not_upper hu]
  | true =>
    intro hfold
    have hnat := fold_toNat_of_upper hu
    rw [hfold] at hnat
    simp at hnat

/-- The symbols that rows of the table are sent as, a `CharBreak` after each (44_frame_format.md R181). -/
def rowSymbols (rows : List (Byte × List MorseSymbol)) : List MorseSymbol :=
  rows.flatMap fun row => row.2 ++ [.charBreak]

theorem rowSymbols_cons (row : Byte × List MorseSymbol) (rows : List (Byte × List MorseSymbol)) :
    rowSymbols (row :: rows) = row.2 ++ [.charBreak] ++ rowSymbols rows := rfl

/-- The rows a text without LF is sent as: their characters are the folded text, and `nsym` of R184 counts their symbols
with a `CharBreak` each. -/
theorem exists_rows_of_text (h : ∀ c ∈ text, c ≠ 0x0A#8 ∧ ∃ q, stEncode cfg c = .ok q) :
    ∃ rows : List (Byte × List MorseSymbol), (∀ row ∈ rows, row ∈ cfg.table ∧ row.1 ≠ 0x0A#8) ∧
      rows.map Prod.fst = text.map fold ∧
      text.flatMap (charBits cfg) = (rowSymbols rows).flatMap (symbolToBits cfg) ∧
      symbolCount cfg text = (rowSymbols rows).length + 1 := by
  induction text with
  | nil => exact ⟨[], nofun, rfl, rfl, rfl⟩
  | cons c text ih =>
    obtain ⟨⟨hlf, q, hq⟩, htext⟩ := List.forall_mem_cons.mp h
    obtain ⟨rows, hrows, hchars, hbits, hcount⟩ := ih htext
    refine ⟨(fold c, q) :: rows, List.forall_mem_cons.mpr ⟨⟨stEncode_ok_mem hq, fold_ne_newline hlf⟩, hrows⟩,
      congrArg (fold c :: ·) hchars, ?_, ?_⟩
    · rw [List.flatMap_cons, rowSymbols_cons, List.flatMap_append, charBits_of_ok hq, hbits]
    · rw [symbolCount, hq, rowSymbols_cons, List.length_append, List.length_append, List.length_singleton, hcount]
      exact (Nat.add_assoc _ _ _).symm

theorem lineBreak_not_mem_rowSymbols {rows : List (Byte × List MorseSymbol)} (hv : cfg.Valid)
    (h : ∀ row ∈ rows, row ∈ cfg.table ∧ row.1 ≠ 0x0A#8) :
    .lineBreak ∉ rowSymbols rows := by
  intro hmem
  obtain ⟨row, hrow, hlb⟩ := List.mem_flatMap.mp hmem
  obtain ⟨hm, hlf⟩ := h row hrow
  obtain hlb | hlb := List.mem_append.mp hlb
  · exact row_no_lineBreak hv hm hlf hlb
  · cases List.mem_singleton.mp hlb

/-! ### Quiet reception -/

/-- A response that reports neither lock, nor an error, nor an ignored command. -/
def Rsp.Quiet (r : Rsp) : Prop := r.lock = false ∧ r.err = 0#3 ∧ r.ignored = false

theorem Rsp.quiet_empty : ({} : Rsp).Quiet := ⟨rfl, rfl, rfl⟩

theorem Rsp.quiet_resolved (y : MorseSymbol) : (Rsp.resolved y).Quiet := ⟨rfl, rfl, rfl⟩

theorem Rsp.quiet_done (y : MorseSymbol) : (Rsp.resolved y).withDone.Quiet := ⟨rfl, rfl, rfl⟩

theorem Rsp.quiet_of_mem_replicate {n : Nat} {r : Rsp} (h : r ∈ List.replicate n ({} : Rsp)) : r.Quiet :=
  List.eq_of_mem_replicate h ▸ Rsp.quiet_empty

/-- Symbols other than `LineBreak` that fit the sequence are received quietly (compare `parserBits_symbols`). -/
theorem parserBits_symbols_quiet (hv : cfg.Valid) : ∀ (q seq : List MorseSymbol), .lineBreak ∉ q →
    seq.length + q.length ≤ cfg.symseqCap →
    ∀ r ∈ (parserBits cfg (.listening [] seq) (q.flatMap (symbolToBits cfg))).2, r.Quiet
  | [], seq, _, _ => nofun
  | y :: q, seq, hlb, hlen => by
    rw [List.length_cons] at hlen
    rw [List.mem_cons, not_or] at hlb
    obtain ⟨hy, hq⟩ := hlb
    have hroom : seq.length < cfg.symseqCap := by omega
    have ih := parserBits_symbols_quiet hv q (seq ++ [y]) hq (by rw [List.length_append, List.length_singleton]; omega)
    rw [List.flatMap_cons, parserBits_append, parserBits_symbol hv, bitLo_symbolToBits_room hv hroom (Ne.symm hy)]
    exact List.forall_mem_append.mpr ⟨List.forall_mem_append.mpr ⟨fun _ => Rsp.quiet_of_mem_replicate,
      List.forall_mem_singleton.mpr (Rsp.quiet_resolved y)⟩, ih⟩

/-- The bits of a sequence and its `LineBreak` from lock on, when the sequence fits and gives a message
(43_decoder_state_machine.md R162). -/
theorem parserBits_message (hv : cfg.Valid) {q : List MorseSymbol} {m : List Byte} (hlb : .lineBreak ∉ q)
    (hlen : q.length < cfg.symseqCap) (hm : process cfg (q ++ [.lineBreak]) = .ok m) :
    ∃ rs, parserBits cfg (.listening [] []) (q.flatMap (symbolToBits cfg) ++ symbolToBits cfg .lineBreak) =
      (.processing (q ++ [.lineBreak]) m, rs ++ [(Rsp.resolved .lineBreak).withDone]) ∧ ∀ r ∈ rs, r.Quiet := by
  have hfit : ([] : List MorseSymbol).length + q.length ≤ cfg.symseqCap := by rw [List.length_nil]; omega
  refine ⟨(parserBits cfg (.listening [] []) (q.flatMap (symbolToBits cfg))).2 ++
    List.replicate (cfg.len .lineBreak - 1) ({} : Rsp), ?_, List.forall_mem_append.mpr
    ⟨parserBits_symbols_quiet hv q [] hlb hfit, fun _ => Rsp.quiet_of_mem_replicate⟩⟩
  rw [parserBits_append, parserBits_symbols hv q [] hlb hfit, List.nil_append, parserBits_symbol hv,
    bitLo_symbolToBits_lineBreak hv hlen, finishMessage_ok hm, List.append_assoc]

/-- Among quiet responses one `lock` stands at its own place only. -/
theorem lock_iff_of_quiet {as bs : List Rsp} {k : Nat} {r : Rsp} (has : ∀ r ∈ as, r.Quiet) (hbs : ∀ r ∈ bs, r.Quiet)
    (h : (as ++ .locked :: bs)[k]? = some r) : r.lock = true ↔ k = as.length := by
  obtain hlt | rfl | hgt := Nat.lt_trichotomy k as.length
  · rw [List.getElem?_append_left hlt] at h
    obtain ⟨hlock, -⟩ := has r (List.mem_of_getElem? h)
    simp [hlock, Nat.ne_of_lt hlt]
  · rw [List.getElem?_append_right (Nat.le_refl _), Nat.sub_self, List.getElem?_cons_zero] at h
    cases h
    simp [Rsp.locked]
  · obtain ⟨j, rfl⟩ := Nat.exists_eq_add_of_lt hgt
    rw [List.getElem?_append_right (by omega), Nat.add_assoc, Nat.add_sub_cancel_left, List.getElem?_cons_succ] at h
    obtain ⟨hlock, -⟩ := hbs r (List.mem_of_getElem? h)
    simpa [hlock] using Nat.ne_of_gt hgt

/-- The Start Pattern and a frame, given to a fresh Parser: the folded text, and every response but the lock quiet. -/
theorem parserBits_frame (hv : cfg.Valid) {bits : List Bit}
    (htext : ∀ c ∈ text, c ≠ 0x0A#8 ∧ ∃ q, stEncode cfg c = .ok q) (hsym : symbolCount cfg text ≤ cfg.symseqCap)
    (hmsg : text.length ≤ cfg.msgCap) (hbits : buildFrame cfg text = .ok bits) :
    ∃ seq rs, parserBits cfg .fresh (cfg.sp ++ bits) = (.processing seq (text.map fold),
      List.replicate (cfg.spLen - 1) ({} : Rsp) ++ .locked :: (rs ++ [(Rsp.resolved .lineBreak).withDone])) ∧
      ∀ r ∈ rs, r.Quiet := by
  obtain ⟨-, -, rfl⟩ := buildFrame_eq_ok_iff.mp hbits
  obtain ⟨rows, hrows, hchars, hsymbols, hcount⟩ := exists_rows_of_text htext
  have hlength : rows.length = text.length := by simpa using congrArg List.length hchars
  have hprocess : process cfg (rowSymbols rows ++ [.lineBreak]) = .ok (text.map fold) :=
    hchars ▸ processDecodesRows cfg rows hv hrows (hlength ▸ hmsg)
  obtain ⟨rs, hbody, hquiet⟩ := parserBits_message hv (lineBreak_not_mem_rowSymbols hv hrows) (by omega) hprocess
  refine ⟨rowSymbols rows ++ [.lineBreak], rs, ?_, hquiet⟩
  rw [parserBits_append, parserBits_sp hv, hsymbols, hbody, List.append_assoc, List.singleton_append]

end

/-- Settles O58: the machine follows its Parser over the script (`run_scriptBits`), and the Parser receives the frame
(`parserBits_frame`). -/
theorem endToEnd : Obligations.EndToEnd := by
  intro s text bits hv hp htext hsym hmsg hbits
  have hrun := run_scriptBits (s.cfg.sp ++ bits) s []
  rw [List.append_nil] at hrun
  obtain ⟨-, -, -, hpar, htrace⟩ := foldl_feedBit (s.cfg.sp ++ bits) s
  have hlength := parserBits_length s.cfg (s.cfg.sp ++ bits) .fresh
  obtain ⟨seq, rs, hframe, hquiet⟩ := parserBits_frame hv htext hsym hmsg hbits
  rw [hp, hframe] at hpar htrace
  rw [hframe] at hlength
  have htail := List.forall_mem_append.mpr ⟨hquiet, List.forall_mem_singleton.mpr (Rsp.quiet_done .lineBreak)⟩
  refine ⟨_, _, hrun, congrArg Parser.tag hpar, congrArg Parser.held hpar, htrace, hlength, fun k r hk => ?_, ?_, ?_⟩
  · have hlock := lock_iff_of_quiet (fun _ => Rsp.quiet_of_mem_replicate) htail hk
    rwa [List.length_replicate] at hlock
  · refine List.forall_mem_append.mpr ⟨fun r hr => (Rsp.quiet_of_mem_replicate hr).2,
      List.forall_mem_cons.mpr ⟨⟨rfl, rfl⟩, fun r hr => (htail r hr).2⟩⟩
  · exact ⟨_, by rw [← List.cons_append, ← List.append_assoc, List.getLast?_concat], rfl⟩

end Sys2Proof.Machine
end

section
/-! The host port of 45_host_port_ops.md: RDMSG, O30; an edge at which no command is accepted, O8; and SETTHR, O29. -/

namespace Sys2Proof.Machine

section
variable {s : State} {p : Parser} {i ch : Byte} {q seq : List MorseSymbol} {m : List Byte} {inp : HostInput}
  {rest : List HostInput}

/-! ### What RDMSG reads (20_memory.md R52, R60) -/

theorem exec_rdmsg (i : Byte) (s : State) :
    exec (.rdmsg i) s = .next (s.respond { data := charData (msgRead s.parser i) }) := rfl

theorem charData_eq_append (ch : Byte) : charData ch = 0#16 ++ ch := BitVec.setWidth_eq_append (by decide)

theorem msgRead_of_getElem? (h : p.msg[i.toNat]? = some ch) : msgRead p i = ch := by
  rw [msgRead, List.getD_eq_getElem?_getD, h, Option.getD_some]

theorem msgRead_of_length_le (h : p.msg.length ≤ i.toNat) : msgRead p i = 0x00#8 := by
  rw [msgRead, List.getD_eq_getElem?_getD, List.getElem?_eq_none h, Option.getD_none]

/-- A bound on every held message bounds `MSG`, which is empty when none is held. -/
theorem Parser.msg_length_le {n : Nat} (h : ∀ seq msg, p = .processing seq msg → msg.length ≤ n) :
    p.msg.length ≤ n := by
  cases p with
  | waitingForStart win => exact Nat.zero_le n
  | listening run seq => exact Nat.zero_le n
  | processing seq msg => exact h seq msg rfl

/-! ### The status output `msg_len` (30_encoding.md R79) -/

theorem State.msgLenOut_toNat_of_processing (hp : s.parser = .processing seq m) (h : m.length < 256) :
    s.msgLenOut.toNat = m.length := by
  rw [State.msgLenOut, hp]
  exact (BitVec.toNat_ofNat _ 8).trans (Nat.mod_eq_of_lt h)

theorem State.msgLenOut_of_not_processing (h : ∀ seq msg, s.parser ≠ .processing seq msg) : s.msgLenOut = 0#8 := by
  have hle : s.parser.msg.length ≤ 0 := Parser.msg_length_le fun seq msg hp => absurd hp (h seq msg)
  rw [State.msgLenOut, Nat.le_zero.mp hle]

/-! ### A message made with the default table -/

/-- The default table has no row for the code 0x00 (40_symbol_table.md R101). -/
theorem defaultTable_ne_nul {row : Byte × List MorseSymbol} (h : row ∈ defaultCfg.table) : row.1 ≠ 0x00#8 := by
  revert row
  decide

theorem nul_not_mem_of_process (h : process defaultCfg q = .ok m) : 0x00#8 ∉ m := by
  intro hmem
  obtain hnil | ⟨sub, -, -, hrow⟩ := processSubs_mem _ _ _ h _ hmem
  · cases hnil
  · exact defaultTable_ne_nul hrow rfl

/-! ### An edge at which no command is accepted (45_host_port_ops.md R195) -/

theorem step_of_no_command (hi : s.inputs = inp :: rest) (hr : inp.rst = false) (hc : inp.cmd = none) :
    step s = .next (s.withInputs rest).idle := by
  simp [step, hi, hr, hc]

theorem step_of_no_input (hi : s.inputs = []) : step s = .next s.idle := by
  simp only [step, hi]

end

/-- Settles O30: RDMSG answers `msgRead`, the character below `MSG_LEN` (`msgRead_of_getElem?`) and 0 at or beyond it
(`msgRead_of_length_le`); a message holds only characters of rows (`nul_not_mem_of_process`). -/
theorem rdmsgReads : Obligations.RdmsgReads := by
  refine fun s i => ⟨fun seq msg ch hp hch => ?_, fun hle => ?_, fun _ _ => State.msgLenOut_toNat_of_processing,
    State.msgLenOut_of_not_processing, fun _ _ _ hcfg hproc => nul_not_mem_of_process (hcfg ▸ hproc)⟩
  · rw [exec_rdmsg, hp, msgRead_of_getElem? (p := .processing seq msg) hch, charData_eq_append]
  · rw [exec_rdmsg, msgRead_of_length_le (Parser.msg_length_le hle)]
    rfl

/-- Settles O8: both edges lead to `State.idle`, which writes the response outputs only. -/
theorem idleEdge : Obligations.IdleEdge := fun _ =>
  ⟨fun _ _ => step_of_no_command, step_of_no_input⟩

/-- Settles O29: BIT moves the Parser by the ROMs and the Parser alone, which SETTHR keeps; SAMPLE in the state after it
is O27 (`sampleThreshold`) with `THR` at the operand. -/
theorem setthrWrites : Obligations.SetthrWrites := by
  refine fun s v => ⟨(s.withThr v).respond {}, rfl, rfl, fun b => ⟨_, _, rfl, rfl⟩, fun u b hb => ?_⟩
  obtain ⟨hsample, -, -⟩ := sampleThreshold ((s.withThr v).respond {}) u b hb
  exact hsample

end Sys2Proof.Machine
end

section
/-! The errors of 60_exceptions.md: no run stops, R200, O12; error entry of BIT and SAMPLE, R210, O42; and where
UnsupportedChar comes from, R202, O43. -/

namespace Sys2Proof.Machine

section
variable {s t : State} {cfg : Cfg} {p : Parser} {i : Instr} {b : Bit}

/-! ### Every operation answers a next state (60_exceptions.md R200) -/

theorem exec_next (i : Instr) (s : State) : ∃ t, exec i s = .next t := by
  obtain ⟨_, -, h⟩ | ⟨_, -, h⟩ | ⟨-, h⟩ | ⟨_, -, h⟩ | ⟨_, -, h⟩ | ⟨_, -, h⟩ | ⟨_, -, h⟩ | ⟨_, -, h⟩ | ⟨_, -, h⟩ |
    ⟨_, -, h⟩ := exec_cases i s <;> exact ⟨_, h⟩

theorem safeStep (s : State) : SafeStep s := by
  obtain ⟨-, h⟩ | ⟨_, rest, -, ⟨-, h⟩ | ⟨-, -, h⟩ | ⟨_, ins, -, -, -, h⟩ | ⟨_, _, -, -, -, h⟩⟩ := step_cases s
  case inr.inr.inr.inl =>
    obtain ⟨t, ht⟩ := exec_next ins (s.withInputs rest)
    exact ⟨t, h.trans ht⟩
  all_goals exact ⟨_, h⟩

/-! ### An error of one bit -/

/-- An error of one bit is an error entry, and not UnsupportedChar; the response it starts from holds the symbol that the
completed run resolved to, if it did (60_exceptions.md R206, R210). -/
theorem parserBit_errorEntry (h : (parserBit cfg p b).2.err ≠ 0#3) :
    ∃ r e, parserBit cfg p b = errorEntry r e ∧ e ≠ .unsupportedChar ∧
      ((r = {} ∧ (b = .hi ∨ ∀ y, bitsToSymbol cfg (p.run ++ [.lo]) ≠ .ok y)) ∨
       (∃ y, r = .resolved y ∧ b = .lo ∧ bitsToSymbol cfg (p.run ++ [.lo]) = .ok y)) := by
  obtain ⟨_, -, -, he⟩ | ⟨_, -, -, he⟩ | ⟨_, _, -, -, -, he⟩ | ⟨_, _, -, hb, -, he⟩ | ⟨_, _, rfl, -, hrun, he⟩ |
    ⟨_, _, y, rfl, hb, hrun, -, he⟩ | ⟨_, _, _, -, -, -, -, -, he⟩ | ⟨_, _, _, -, -, -, -, -, he⟩ |
    ⟨_, _, e, rfl, hb, hrun, -, -, hproc, he⟩ | ⟨_, _, -, he⟩ := parserBit_cases cfg p b
  case inr.inr.inr.inl => exact ⟨_, _, he, nofun, .inl ⟨rfl, .inl hb⟩⟩
  case inr.inr.inr.inr.inl =>
    exact ⟨_, _, he, nofun, .inl ⟨rfl, .inr fun y hy => nomatch hrun.symm.trans hy⟩⟩
  case inr.inr.inr.inr.inr.inl => exact ⟨_, _, he, nofun, .inr ⟨y, rfl, hb, hrun⟩⟩
  case inr.inr.inr.inr.inr.inr.inr.inr.inl =>
    refine ⟨_, _, he, ?_, .inr ⟨_, rfl, hb, hrun⟩⟩
    obtain rfl | rfl := hproc <;> nofun
  all_goals exact absurd (congrArg (fun o => o.2.err) he) h

/-- After an error of one bit the Parser is fresh, and the response says which symbol the run resolved to. -/
theorem parserBit_err (h : (parserBit cfg p b).2.err ≠ 0#3) :
    (parserBit cfg p b).1 = .fresh ∧
    (∀ y, b = .lo → bitsToSymbol cfg (p.run ++ [.lo]) = .ok y →
      (parserBit cfg p b).2.symValid = true ∧ (parserBit cfg p b).2.sym = BitVec.ofNat 3 (symbolCode y)) ∧
    ((b = .hi ∨ ∀ y, bitsToSymbol cfg (p.run ++ [.lo]) ≠ .ok y) → (parserBit cfg p b).2.symValid = false) := by
  obtain ⟨r, e, he, -, ⟨rfl, hnone⟩ | ⟨y, rfl, rfl, hrun⟩⟩ := parserBit_errorEntry h <;> rw [he]
  · refine ⟨rfl, fun y hlo hy => ?_, fun _ => rfl⟩
    obtain hhi | hno := hnone
    · exact nomatch hlo.symm.trans hhi
    · exact absurd hy (hno y)
  · refine ⟨rfl, fun y' _ hy' => ?_, ?_⟩
    · cases hrun.symm.trans hy'
      exact ⟨rfl, rfl⟩
    · rintro (hhi | hno)
      · cases hhi
      · exact absurd hrun (hno y)

/-- BIT, and SAMPLE with its thresholded bit, move the Parser by that bit; they differ in `data` only
(43_decoder_state_machine.md R166). -/
theorem exec_bit_or_sample (hi : i = .bit b ∨ ∃ v, i = .sample v ∧ b = sampleBit s.thr v) (h : exec i s = .next t) :
    ∃ d, t = (s.withParser (parserBit s.cfg s.parser b).1).respond ((parserBit s.cfg s.parser b).2.withData d) := by
  obtain rfl | ⟨v, rfl, rfl⟩ := hi <;> cases h
  · exact ⟨(parserBit s.cfg s.parser b).2.data, rfl⟩
  · exact ⟨sampleData (sampleBit s.thr v), rfl⟩

/-! ### UnsupportedChar (60_exceptions.md R202) -/

theorem errorCode_ne_unsupported {e : ErrorKind} (h : e ≠ .unsupportedChar) : errorCode e ≠ 1#3 := by
  cases e with
  | unsupportedChar => exact absurd rfl h
  | unknownBitSequence | unknownSequence | fullBuffer => decide

theorem parserBit_ne_unsupported (cfg : Cfg) (p : Parser) (b : Bit) : (parserBit cfg p b).2.err ≠ 1#3 := by
  by_cases h : (parserBit cfg p b).2.err = 0#3
  · rw [h]
    decide
  · obtain ⟨r, e, he, hne, -⟩ := parserBit_errorEntry h
    rw [he]
    exact errorCode_ne_unsupported hne

theorem decRsp_ne_unsupported (cfg : Cfg) (q : List MorseSymbol) : (decRsp cfg q).err ≠ 1#3 := by
  unfold decRsp
  split
  · exact nofun
  · exact nofun
  next e he =>
    obtain rfl := stDecode_err he
    exact errorCode_ne_unsupported (e := .unknownSequence) nofun

theorem b2sRsp_ne_unsupported (cfg : Cfg) (bits : List Bit) : (b2sRsp cfg bits).err ≠ 1#3 := by
  unfold b2sRsp
  split
  · exact nofun
  next e he =>
    obtain rfl := bitsToSymbol_err he
    exact errorCode_ne_unsupported (e := .unknownBitSequence) nofun

/-- The responses an instruction other than ENC adds. -/
theorem exec_trace_ne_unsupported (hi : ∀ c, i ≠ .enc c) (h : exec i s = .next t) :
    ∃ rs, t.trace = s.trace ++ rs ∧ ∀ r ∈ rs, r.err ≠ 1#3 := by
  obtain ⟨b, -, rfl⟩ | ⟨v, -, rfl⟩ | ⟨-, rfl⟩ | ⟨v, -, rfl⟩ | ⟨k, -, rfl⟩ | ⟨c, henc, -⟩ | ⟨q, -, rfl⟩ | ⟨y, -, rfl⟩ |
    ⟨run, -, rfl⟩ | ⟨bits, -, rfl⟩ := exec_next_cases h
  case inr.inr.inr.inr.inr.inl => exact absurd henc (hi c)
  case inr.inr.inr.inr.inr.inr.inr.inr.inr =>
    exact ⟨_, s.feedBits_trace bits, parserBits_forall s.cfg (parserBit_ne_unsupported s.cfg) bits s.parser⟩
  all_goals refine ⟨_, rfl, List.forall_mem_singleton.mpr ?_⟩
  case inl => exact parserBit_ne_unsupported _ _ b
  case inr.inl => exact parserBit_ne_unsupported _ _ _
  case inr.inr.inr.inr.inr.inr.inl => exact decRsp_ne_unsupported _ q
  case inr.inr.inr.inr.inr.inr.inr.inr.inl => exact b2sRsp_ne_unsupported _ run
  all_goals exact nofun

end

/-- Settles O12, by induction on the number of steps: `safeStep`. -/
theorem runsNeverStop : Obligations.RunsNeverStop := by
  intro n
  induction n with
  | zero => exact fun s => ⟨s, rfl⟩
  | succ n ih =>
    intro s
    obtain ⟨u, hu⟩ := safeStep s
    obtain ⟨t, ht⟩ := ih u
    exact ⟨t, (run_succ (M := Sys2Proof.core) hu).trans ht⟩

/-- Settles O42: both operations move the Parser by one bit (`exec_bit_or_sample`), whose error is `parserBit_err`. -/
theorem errorEntry_fresh : Obligations.ErrorEntry := by
  intro s t i b hi h herr
  obtain ⟨d, rfl⟩ := exec_bit_or_sample hi h
  obtain ⟨hfresh, hkept, hnone⟩ := parserBit_err herr
  rw [hfresh]
  exact ⟨rfl, rfl, rfl, rfl, rfl, msgRead_fresh, hkept, hnone⟩

/-- Settles O43: the responses of the other instructions are those of `exec_trace_ne_unsupported`, and ENC adds one. -/
theorem unsupportedCharOnlyEnc : Obligations.UnsupportedCharOnlyEnc := by
  intro s t i h r hr herr
  by_cases hi : ∃ c, i = .enc c
  · obtain ⟨c, rfl⟩ := hi
    cases h
    rw [State.respond_trace, List.drop_left, List.mem_singleton] at hr
    subst hr
    exact ⟨⟨c, rfl⟩, rfl⟩
  · obtain ⟨rs, htrace, hne⟩ := exec_trace_ne_unsupported (not_exists.mp hi) h
    rw [htrace, List.drop_left] at hr
    exact absurd herr (hne r hr)

end Sys2Proof.Machine
end

section
/-! The hazards of 70_reset_and_hazards.md: what a held message outlives, R241, O26; and what may come between two bits,
R246, O48. -/

namespace Sys2Proof.Machine

/-- BIT moves the Parser by the ROMs and the Parser alone (43_decoder_state_machine.md R150). -/
theorem exec_bit_congr {s t : State} (hp : t.parser = s.parser) (hc : t.cfg = s.cfg) (b : Bit) :
    ∃ p r, exec (.bit b) s = .next ((s.withParser p).respond r) ∧ exec (.bit b) t = .next ((t.withParser p).respond r) := by
  obtain ⟨⟨p, r⟩, h⟩ : ∃ o, parserBit s.cfg s.parser b = o := ⟨_, rfl⟩
  exact ⟨p, r, exec_bit_of h, exec_bit_of (by rw [hp, hc, h])⟩

/-- Settles O26: `exec_processing`, and NEW and reset make the Parser fresh. -/
theorem heldMessageKept : Obligations.HeldMessageKept := by
  refine fun s seq msg hp => ⟨fun i t hi h => (exec_processing hp hi h).trans hp, fun t h => ?_,
    fun i rest t hin hr h => ?_⟩
  · cases h
    rfl
  · cases (step_of_rst hin hr).symm.trans h
    rfl

/-- Settles O48: what comes before the BIT keeps the Parser and the ROMs (O46, `readsKeepState`), and the BIT looks at
nothing else (`exec_bit_congr`). -/
theorem lookupsDoNotDisturb : Obligations.LookupsDoNotDisturb := by
  intro s t b hbefore
  have hkept : t.parser = s.parser ∧ t.cfg = s.cfg := by
    obtain ⟨-, hop, hreserved, hidle⟩ := readsKeepState s
    obtain ⟨_, h⟩ | ⟨_, h⟩ | ⟨_, h⟩ | ⟨_, h⟩ | ⟨_, h⟩ | ⟨_, h⟩ | ⟨w, rfl⟩ | rfl := hbefore
    case inr.inr.inr.inr.inr.inr.inl => exact hreserved w
    case inr.inr.inr.inr.inr.inr.inr => exact hidle
    all_goals
      refine hop _ _ ?_ ?_ ?_ ?_ ?_ ?_ h
      exacts [nofun, nofun, nofun, nofun, rfl, rfl]
  obtain ⟨hp, hc⟩ := hkept
  exact exec_bit_congr hp hc b

end Sys2Proof.Machine
end
